-- ==== Sys2Proof/Word.lean ====
section
/-! DEFINITION. The two sizes of data the core handles: the 16-bit word (R12) and the console byte (R70). -/

namespace Sys2Proof

/-- A 16-bit word: register contents, addresses, memory words and instructions (R9, R12).
Its `+` and `-` wrap modulo 65536, as R13 says of every sum and difference. -/
abbrev Word := BitVec 16

/-- One byte of the console interface (R70). -/
abbrev Byte := BitVec 8

/-- A register field: a 3-bit unsigned index that selects one of R0 to R7 (R83). -/
abbrev Reg := BitVec 3

end Sys2Proof
end

