-- ==== Sys2Proof/Syntax.lean ====
section
/-! DEFINITION. The instructions: one constructor for each of the 25 rows of spec/opcode_table.json, in its order. -/

namespace Sys2Proof

/-- An instruction with the fields the core reads (R82); the bits R92 calls ignored are no part of it.
Immediates and offsets are the raw fields, sign-extended where they are used (R85 to R88). -/
inductive Instr where
  /-- ADD, register form (R110). -/
  | addReg (dr sr1 sr2 : Reg)
  /-- ADD, immediate form (R111). -/
  | addImm (dr sr1 : Reg) (imm5 : BitVec 5)
  /-- AND, register form (R112). -/
  | andReg (dr sr1 sr2 : Reg)
  /-- AND, immediate form (R113). -/
  | andImm (dr sr1 : Reg) (imm5 : BitVec 5)
  /-- NOT (R114). -/
  | notReg (dr sr : Reg)
  /-- BR; the mask is instr[11:9] = n:z:p (R90, R120). -/
  | br (mask : BitVec 3) (offset9 : BitVec 9)
  /-- JMP, and RET when the base is R7 (R122, R123). -/
  | jmp (baseR : Reg)
  /-- JSR (R124). -/
  | jsr (offset11 : BitVec 11)
  /-- JSRR (R125). -/
  | jsrr (baseR : Reg)
  /-- LD (R130). -/
  | ld (dr : Reg) (offset9 : BitVec 9)
  /-- LDI (R131). -/
  | ldi (dr : Reg) (offset9 : BitVec 9)
  /-- LDR (R132). -/
  | ldr (dr baseR : Reg) (offset6 : BitVec 6)
  /-- LEA (R133). -/
  | lea (dr : Reg) (offset9 : BitVec 9)
  /-- ST (R134). -/
  | st (sr : Reg) (offset9 : BitVec 9)
  /-- STI (R135). -/
  | sti (sr : Reg) (offset9 : BitVec 9)
  /-- STR (R136). -/
  | str (sr baseR : Reg) (offset6 : BitVec 6)
  /-- TRAP x20, GETC (R143). -/
  | trapGetc
  /-- TRAP x21, OUT (R144). -/
  | trapOut
  /-- TRAP x22, PUTS (R145). -/
  | trapPuts
  /-- TRAP x23, IN (R146). -/
  | trapIn
  /-- TRAP x24, PUTSP (R148). -/
  | trapPutsp
  /-- TRAP x25, HALT (R151). -/
  | trapHalt
  /-- TRAP with any other vector (R152). -/
  | trapUnknown (trapvect8 : BitVec 8)
  /-- Opcode 0x8, the RTI slot, illegal here (R93). -/
  | rtiSlot
  /-- Opcode 0xD, reserved, illegal (R93). -/
  | reservedSlot
  deriving DecidableEq, Repr

end Sys2Proof
end

