-- ==== Sys2Proof/WellFormed.lean ====
section
/-! DEFINITION. Which instructions some word stands for. -/

namespace Sys2Proof

/-- A vector for which no routine is built in: every value but 0x20 to 0x25 (R94, R141). -/
def unknownVector (v : BitVec 8) : Bool := decide (v.toNat < 0x20 ∨ 0x25 < v.toNat)

/-- Every field of an instruction is already bounded by its type; the one further condition is that the row
"TRAP (unknown vector)" stands only for the vectors no other TRAP row takes (R94). -/
def Instr.wellFormed : Instr → Bool
  | .addReg _ _ _ => true
  | .addImm _ _ _ => true
  | .andReg _ _ _ => true
  | .andImm _ _ _ => true
  | .notReg _ _ => true
  | .br _ _ => true
  | .jmp _ => true
  | .jsr _ => true
  | .jsrr _ => true
  | .ld _ _ => true
  | .ldi _ _ => true
  | .ldr _ _ _ => true
  | .lea _ _ => true
  | .st _ _ => true
  | .sti _ _ => true
  | .str _ _ _ => true
  | .trapGetc => true
  | .trapOut => true
  | .trapPuts => true
  | .trapIn => true
  | .trapPutsp => true
  | .trapHalt => true
  | .trapUnknown v => unknownVector v
  | .rtiSlot => true
  | .reservedSlot => true

/-- The same check as a proposition that `decide` can run on. -/
abbrev Instr.WellFormed (i : Instr) : Prop := i.wellFormed = true

end Sys2Proof
end

