-- ==== Sys2Proof/Decode.lean ====
section
/-! DEFINITION. The decoder (total: R99), the opcode table it must agree with, and the encoder, all written from the
field layout of R82. Opcode numbers and field positions are the spec's decisions D2 and D3, vectors its D16. -/

namespace Sys2Proof

/-! ### Fields of a word (R82) -/

/-- instr[15:12], the opcode (R81). -/
def opcodeOf (w : Word) : BitVec 4 := w.extractLsb' 12 4

/-- instr[11:9]: DR, the stored SR, or the BR mask n:z:p. -/
def fieldA (w : Word) : BitVec 3 := w.extractLsb' 9 3

/-- instr[8:6]: SR1, SR or BaseR. -/
def fieldB (w : Word) : BitVec 3 := w.extractLsb' 6 3

/-- instr[2:0]: SR2. -/
def fieldC (w : Word) : BitVec 3 := w.extractLsb' 0 3

/-- instr[5], the mode bit of ADD and AND (R84). -/
def modeBit (w : Word) : Bool := w.getLsbD 5

/-- instr[11], the long bit of JSR and JSRR (R91). -/
def longBit (w : Word) : Bool := w.getLsbD 11

/-- instr[4:0] (R85). -/
def imm5Of (w : Word) : BitVec 5 := w.extractLsb' 0 5

/-- instr[5:0] (R86). -/
def offset6Of (w : Word) : BitVec 6 := w.extractLsb' 0 6

/-- instr[8:0] (R87). -/
def offset9Of (w : Word) : BitVec 9 := w.extractLsb' 0 9

/-- instr[10:0] (R88). -/
def offset11Of (w : Word) : BitVec 11 := w.extractLsb' 0 11

/-- instr[7:0], the trap vector, unsigned (R89). -/
def trapvect8Of (w : Word) : BitVec 8 := w.extractLsb' 0 8

/-! ### The decoder -/

/-- The routine a vector selects (R94, R141). -/
def decodeTrap (v : BitVec 8) : Instr :=
  match v.toNat with
  | 0x20 => .trapGetc
  | 0x21 => .trapOut
  | 0x22 => .trapPuts
  | 0x23 => .trapIn
  | 0x24 => .trapPutsp
  | 0x25 => .trapHalt
  | _ => .trapUnknown v

/-- The instruction a word stands for: by instr[15:12] alone, plus instr[5] for ADD and AND, instr[11] for opcode
0100 and instr[7:0] for TRAP (R95). Total (R99): the two illegal opcodes have constructors of their own (R93).
A 4-bit opcode that is none of 0x0 to 0xE is 0xF. -/
def decodeWord (w : Word) : Instr :=
  match (opcodeOf w).toNat with
  | 0x0 => .br (fieldA w) (offset9Of w)
  | 0x1 => if modeBit w then .addImm (fieldA w) (fieldB w) (imm5Of w) else .addReg (fieldA w) (fieldB w) (fieldC w)
  | 0x2 => .ld (fieldA w) (offset9Of w)
  | 0x3 => .st (fieldA w) (offset9Of w)
  | 0x4 => if longBit w then .jsr (offset11Of w) else .jsrr (fieldB w)
  | 0x5 => if modeBit w then .andImm (fieldA w) (fieldB w) (imm5Of w) else .andReg (fieldA w) (fieldB w) (fieldC w)
  | 0x6 => .ldr (fieldA w) (fieldB w) (offset6Of w)
  | 0x7 => .str (fieldA w) (fieldB w) (offset6Of w)
  | 0x8 => .rtiSlot
  | 0x9 => .notReg (fieldA w) (fieldB w)
  | 0xA => .ldi (fieldA w) (offset9Of w)
  | 0xB => .sti (fieldA w) (offset9Of w)
  | 0xC => .jmp (fieldB w)
  | 0xD => .reservedSlot
  | 0xE => .lea (fieldA w) (offset9Of w)
  | _ => decodeTrap (trapvect8Of w)

/-- The instruction the decoder reads from a table row's word. An instruction is one 16-bit word (R80); the bits
above `nbits` are 0, and no instruction is longer than 16 bits. -/
def decodeTableWord (nbits w : Nat) : Option Instr :=
  if nbits ≤ 16 then some (decodeWord (BitVec.ofNat 16 (w % 2 ^ nbits))) else none

/-! ### The encoder: R82 read the other way, with every ignored bit 0, but for NOT (R96: 111111 when assembled) -/

/-- 15:12 | 11:9 | 8:6 | 5:0. -/
def packRegReg (op : BitVec 4) (a b : BitVec 3) (low : BitVec 6) : Word := op ++ a ++ b ++ low

/-- 15:12 | 11:9 | 8:0. -/
def packRegOffset (op : BitVec 4) (a : BitVec 3) (low : BitVec 9) : Word := op ++ a ++ low

/-- 15:12 | 11 | 10:0. -/
def packLong (op : BitVec 4) (long : BitVec 1) (low : BitVec 11) : Word := op ++ long ++ low

/-- 15:12 | 11:8 | 7:0. -/
def packTrap (op : BitVec 4) (x : BitVec 4) (low : BitVec 8) : Word := op ++ x ++ low

/-- The word of an instruction (R82). -/
def encode : Instr → Word
  | .addReg d a b => packRegReg 0b0001 d a (0b0#1 ++ 0b00#2 ++ b)
  | .addImm d a i => packRegReg 0b0001 d a (0b1#1 ++ i)
  | .andReg d a b => packRegReg 0b0101 d a (0b0#1 ++ 0b00#2 ++ b)
  | .andImm d a i => packRegReg 0b0101 d a (0b1#1 ++ i)
  | .notReg d a => packRegReg 0b1001 d a 0b111111
  | .br m o => packRegOffset 0b0000 m o
  | .jmp b => packRegReg 0b1100 0b000 b 0b000000
  | .jsr o => packLong 0b0100 0b1 o
  | .jsrr b => packRegReg 0b0100 0b000 b 0b000000
  | .ld d o => packRegOffset 0b0010 d o
  | .ldi d o => packRegOffset 0b1010 d o
  | .ldr d b o => packRegReg 0b0110 d b o
  | .lea d o => packRegOffset 0b1110 d o
  | .st r o => packRegOffset 0b0011 r o
  | .sti r o => packRegOffset 0b1011 r o
  | .str r b o => packRegReg 0b0111 r b o
  | .trapGetc => packTrap 0b1111 0b0000 0x20
  | .trapOut => packTrap 0b1111 0b0000 0x21
  | .trapPuts => packTrap 0b1111 0b0000 0x22
  | .trapIn => packTrap 0b1111 0b0000 0x23
  | .trapPutsp => packTrap 0b1111 0b0000 0x24
  | .trapHalt => packTrap 0b1111 0b0000 0x25
  | .trapUnknown v => packTrap 0b1111 0b0000 v
  | .rtiSlot => 0x8000
  | .reservedSlot => 0xD000

/-- The bits of its word an instruction uses: all but the bits marked x in R82, which R92 says are ignored. -/
def usedBits : Instr → Word
  | .addReg _ _ _ => 0xFFE7
  | .addImm _ _ _ => 0xFFFF
  | .andReg _ _ _ => 0xFFE7
  | .andImm _ _ _ => 0xFFFF
  | .notReg _ _ => 0xFFC0
  | .br _ _ => 0xFFFF
  | .jmp _ => 0xF1C0
  | .jsr _ => 0xFFFF
  | .jsrr _ => 0xF9C0
  | .ld _ _ => 0xFFFF
  | .ldi _ _ => 0xFFFF
  | .ldr _ _ _ => 0xFFFF
  | .lea _ _ => 0xFFFF
  | .st _ _ => 0xFFFF
  | .sti _ _ => 0xFFFF
  | .str _ _ _ => 0xFFFF
  | .trapGetc => 0xF0FF
  | .trapOut => 0xF0FF
  | .trapPuts => 0xF0FF
  | .trapIn => 0xF0FF
  | .trapPutsp => 0xF0FF
  | .trapHalt => 0xF0FF
  | .trapUnknown _ => 0xF0FF
  | .rtiSlot => 0xF000
  | .reservedSlot => 0xF000

/-! ### The opcode table as data: spec/opcode_table.json, row for row -/

/-- One row of spec/opcode_table.json: a word w is the row's when `w &&& mask = pattern`. -/
structure TableRow where
  mnemonic : String
  mask : Word
  pattern : Word
  /-- The instruction of a word of this row, from the row's fields. -/
  build : Word → Instr

/-- Whether a word has the row's fixed bits. -/
def TableRow.matches (r : TableRow) (w : Word) : Bool := w &&& r.mask == r.pattern

/-- The rows in the table's order. The row of the unknown vectors applies only when no TRAP row above it matches,
as its note in the table says. -/
def opcodeTable : List TableRow :=
  [ ⟨"ADD", 0xF020, 0x1000, fun w => .addReg (fieldA w) (fieldB w) (fieldC w)⟩,
    ⟨"ADD", 0xF020, 0x1020, fun w => .addImm (fieldA w) (fieldB w) (imm5Of w)⟩,
    ⟨"AND", 0xF020, 0x5000, fun w => .andReg (fieldA w) (fieldB w) (fieldC w)⟩,
    ⟨"AND", 0xF020, 0x5020, fun w => .andImm (fieldA w) (fieldB w) (imm5Of w)⟩,
    ⟨"NOT", 0xF000, 0x9000, fun w => .notReg (fieldA w) (fieldB w)⟩,
    ⟨"BR", 0xF000, 0x0000, fun w => .br (fieldA w) (offset9Of w)⟩,
    ⟨"JMP", 0xF000, 0xC000, fun w => .jmp (fieldB w)⟩,
    ⟨"JSR", 0xF800, 0x4800, fun w => .jsr (offset11Of w)⟩,
    ⟨"JSRR", 0xF800, 0x4000, fun w => .jsrr (fieldB w)⟩,
    ⟨"LD", 0xF000, 0x2000, fun w => .ld (fieldA w) (offset9Of w)⟩,
    ⟨"LDI", 0xF000, 0xA000, fun w => .ldi (fieldA w) (offset9Of w)⟩,
    ⟨"LDR", 0xF000, 0x6000, fun w => .ldr (fieldA w) (fieldB w) (offset6Of w)⟩,
    ⟨"LEA", 0xF000, 0xE000, fun w => .lea (fieldA w) (offset9Of w)⟩ ] ++
  [ ⟨"ST", 0xF000, 0x3000, fun w => .st (fieldA w) (offset9Of w)⟩,
    ⟨"STI", 0xF000, 0xB000, fun w => .sti (fieldA w) (offset9Of w)⟩,
    ⟨"STR", 0xF000, 0x7000, fun w => .str (fieldA w) (fieldB w) (offset6Of w)⟩,
    ⟨"TRAP_GETC", 0xF0FF, 0xF020, fun _ => .trapGetc⟩,
    ⟨"TRAP_OUT", 0xF0FF, 0xF021, fun _ => .trapOut⟩,
    ⟨"TRAP_PUTS", 0xF0FF, 0xF022, fun _ => .trapPuts⟩,
    ⟨"TRAP_IN", 0xF0FF, 0xF023, fun _ => .trapIn⟩,
    ⟨"TRAP_PUTSP", 0xF0FF, 0xF024, fun _ => .trapPutsp⟩,
    ⟨"TRAP_HALT", 0xF0FF, 0xF025, fun _ => .trapHalt⟩,
    ⟨"TRAP__unknown_vector", 0xF000, 0xF000, fun w => .trapUnknown (trapvect8Of w)⟩,
    ⟨"RTI_slot__illegal", 0xF000, 0x8000, fun _ => .rtiSlot⟩,
    ⟨"reserved__illegal", 0xF000, 0xD000, fun _ => .reservedSlot⟩ ]

/-- Decoding by table lookup: the first row that matches. -/
def decodeByTable (w : Word) : Option Instr :=
  (opcodeTable.find? (fun r => r.matches w)).map (fun r => r.build w)

end Sys2Proof
end

