-- ==== Sys2Proof/Config.lean ====
section
/-! DEFINITION. The configuration fields of R10 with the defaults of R9, the open exit codes of R180, and the one free
value of the model. -/

namespace Sys2Proof

/-- PUTSP_ZERO_LOW: what PUTSP does at a word with a zero low byte and a nonzero high byte (R149). -/
inductive PutspZeroLow where
  /-- The routine ends at such a word and sends nothing for it. -/
  | truncate
  /-- The routine sends 0x00, then the high byte, and continues. -/
  | emitNul
  deriving DecidableEq, Repr

/-- JSRR_LINK_ORDER: whether JSRR writes the link before or after it reads its target (R125). -/
inductive JsrrLinkOrder where
  | linkFirst
  | targetFirst
  deriving DecidableEq, Repr

/-- The parameters a model of this core takes as configuration (R10).
They are fixed for one machine: no step changes them. -/
structure Config where
  /-- PC_START, the reset value of PC (R191). -/
  pcStart : Word
  /-- KBSR_ADDR, the keyboard-status word (R54). -/
  kbsrAddr : Word
  /-- KBDR_ADDR, the keyboard-data word (R54). -/
  kbdrAddr : Word
  /-- IN_PROMPT, the bytes IN writes before it reads (R146). -/
  inPrompt : List Byte
  /-- HALT_NOTICE, the bytes HALT writes (R151). -/
  haltNotice : List Byte
  /-- PUTSP_ZERO_LOW (R149). -/
  putspZeroLow : PutspZeroLow
  /-- JSRR_LINK_ORDER (R125). -/
  jsrrLinkOrder : JsrrLinkOrder
  deriving DecidableEq, Repr

/-- "Enter a character: ", the default IN_PROMPT (R9), one byte a character. -/
def Config.defaultPrompt : List Byte :=
  [0x45, 0x6E, 0x74, 0x65, 0x72, 0x20, 0x61, 0x20, 0x63, 0x68, 0x61, 0x72, 0x61, 0x63, 0x74, 0x65, 0x72,
    0x3A, 0x20]

/-- "HALT" and a newline, the default HALT_NOTICE (R9). -/
def Config.defaultNotice : List Byte := [0x48, 0x41, 0x4C, 0x54, 0x0A]

/-- The defaults of R9. -/
def Config.default : Config where
  pcStart := 0x3000
  kbsrAddr := 0xFE00
  kbdrAddr := 0xFE02
  inPrompt := Config.defaultPrompt
  haltNotice := Config.defaultNotice
  putspZeroLow := .truncate
  jsrrLinkOrder := .linkFirst

/-- The exit codes, which R180 leaves as open parameters: what speaks of an exit status takes them as an argument
(D25), and no value of them is chosen here. They are no part of the machine, which never reads one. -/
structure ExitCodes where
  /-- EXIT_USAGE, for a command line with no image path. -/
  exitUsage : Int
  /-- EXIT_LOAD, for an image that cannot be loaded. -/
  exitLoad : Int
  /-- EXIT_INTERRUPT, for the host stop. -/
  exitInterrupt : Int
  /-- The platform's status of a process that terminates abnormally. -/
  abortStatus : Int
  deriving DecidableEq, Repr

/-- "a distinct nonzero code" (R180), of EXIT_USAGE, EXIT_LOAD and EXIT_INTERRUPT; of the platform's abort status the
spec says nothing. -/
abbrev ExitCodes.Distinct (codes : ExitCodes) : Prop :=
  [0, codes.exitUsage, codes.exitLoad, codes.exitInterrupt].Nodup

/-- The draw of the environment behind the n-th PollReady, where State scripts none: R71 calls the answer "a draw
of the environment: a model takes it as a free input of the step".
A free value (assumption 2): nothing fixes it, so a claim holds whatever it is. -/
opaque freePollReady : Nat → Bool

end Sys2Proof
end

