-- ==== Sys2Proof/Machine/State.lean ====
section
/-! DEFINITION. The state of the machine (R30, R44), its reset value (R45) and the reasons a step does not happen. -/

namespace Sys2Proof.Machine

/-- One listed cell of memory: an address and the word stored there.
The core is word-addressed and no part of a word has an address (R51), so the cell is a word. -/
abbrev Cell := Nat × Word

/-- Memory: the cells whose word differs from what an unlisted address reads as, by rising address (assumption 1). -/
abbrev Memory := List Cell

/-- COND: exactly one of N, Z, P at all times (R30, R37). Its one-hot encoding (R38) is `Cond.bits`. -/
inductive Cond where
  | n | z | p
  deriving DecidableEq, Repr

/-- The reason recorded beside the Faulted state, for observation only (R162). -/
inductive FaultReason where
  /-- The opcode (0x8 or 0xD) and the address of the illegal word. -/
  | illegalInstruction (opcode : BitVec 4) (address : Word)
  deriving DecidableEq, Repr

/-- RUN (R40), with the recorded reason beside Faulted (R162). -/
inductive RunState where
  | running
  | halted
  | faulted (reason : FaultReason)
  deriving DecidableEq, Repr

/-- A trap routine that has begun and not completed: the step that called it is still in progress (R147, R150).
The model's own field (assumption 3). -/
inductive Routine where
  /-- GETC, blocked in ReadChar. -/
  | getc
  /-- IN, blocked in ReadChar after its prompt. -/
  | inChar
  /-- PUTS that has met no zero word in a whole pass over memory; `a` is the next address it reads. -/
  | puts (a : Word)
  /-- PUTSP that has met no stopping word in a whole pass over memory; `a` is the next address it reads. -/
  | putsp (a : Word)
  deriving DecidableEq, Repr

/-- One request the core made of the console: the observable events of R22. -/
inductive ConsoleEvent where
  /-- PollReady and the answer the core got (R71). -/
  | pollReady (answer : Bool)
  /-- ReadChar was called (R72). -/
  | readChar
  /-- WriteChar sent this byte (R73). -/
  | writeChar (b : Byte)
  deriving DecidableEq, Repr

/-- The state. The first five fields are the architectural state of R30; the keyboard cells KBSR and KBDR are words of
memory (R41, R42). The console fields are the environment state of R44 and the requests R22 calls observable. -/
structure State where
  /-- R0 to R7 (R31). -/
  regs : Vector Word 8
  /-- PC: between steps the address of the next instruction, inside a step that address plus 1 (R35). -/
  pc : Word
  /-- COND (R37). -/
  cond : Cond
  /-- RUN (R40). -/
  run : RunState
  /-- M (R50). -/
  mem : Memory
  /-- The step in progress, if the last one has not completed (R147, R150). -/
  inFlight : Option Routine
  /-- The bytes of the console input stream that have arrived and are not consumed, next byte first (R44, R74). -/
  input : List Byte
  /-- The environment's draws for the next PollReady requests (R71), next draw first; after them `freePollReady`. -/
  polls : List Bool
  /-- How many PollReady requests have been made: the argument of the free draws. -/
  pollCount : Nat
  /-- Every console request so far, oldest first (R22); the output stream (R44) is its WriteChar bytes. -/
  events : List ConsoleEvent
  /-- Whether the operator asks for a host stop (R172). -/
  hostStop : Bool
  /-- The parameters of the machine (R10); no step changes them. -/
  cfg : Config
  deriving DecidableEq, Repr

/-- Why no step happens. No meaning of an instruction answers one of these: `step` does, before any fetch. -/
inductive Fault where
  /-- Raised by `step` when RUN is Halted: "While RUN is Halted or Faulted there is no step" (R104).
  Safe: the machine has no next state there either. -/
  | halted
  /-- Raised by `step` when RUN is Faulted (R104), with the recorded reason. Safe, as `halted` is. -/
  | faulted (reason : FaultReason)
  /-- Raised by `step` when the operator's stop is taken, between steps or in a blocked ReadChar (R172). Safe: the
  run has ended and the stop writes no state. -/
  | hostStop
  deriving DecidableEq, Repr

/-- An instruction without a meaning. -/
inductive Refusal where
  /-- Raised by `exec` for an instruction that has no meaning yet, by its mnemonic. Safe: nothing follows from it. -/
  | notModelled (mnemonic : String)
  deriving DecidableEq, Repr

/-- The launch state of R197 over a given memory: registers zero (R190), PC at PC_START (R191), COND = Z (R192),
RUN = Running and no output (R193). The console input is the environment's: none has arrived yet (assumption 4). -/
def State.powerOn (cfg : Config) (mem : Memory) : State where
  regs := Vector.replicate 8 0
  pc := cfg.pcStart
  cond := .z
  run := .running
  mem := mem
  inFlight := none
  input := []
  polls := []
  pollCount := 0
  events := []
  hostStop := false
  cfg := cfg

/-- The machine right after reset (R45): default parameters, and nothing loaded, so every word of memory is zero. -/
def State.reset : State := State.powerOn Config.default []

end Sys2Proof.Machine
end

