-- ==== Sys2Proof/Machine/Ops.lean ====
section
/-! DEFINITION. The named operations on registers, memory, the console and RUN that the meanings share. -/

namespace Sys2Proof.Machine

/-! ### Registers and PC (R31 to R36) -/

/-- R[r] (R31). -/
def State.reg (s : State) (r : Reg) : Word := s.regs[r.toNat]

/-- R[r] <- v: changes only R[r] (R31). -/
def State.setReg (s : State) (r : Reg) (v : Word) : State := { s with regs := s.regs.set r.toNat v }

/-- PC <- v. Every value is legal (R36). -/
def State.setPc (s : State) (v : Word) : State := { s with pc := v }

/-- The increment at fetch, modulo 65536 (R36, R101). -/
def State.incPc (s : State) : State := s.setPc (s.pc + 1)

/-- R7, the link register (R33). -/
def linkReg : Reg := 7

/-- R0, the trap argument register (R34). -/
def argReg : Reg := 0

/-- R[7] <- PC, the link write of JSR, JSRR and TRAP (R33); it does not touch COND (R39). -/
def State.link (s : State) : State := s.setReg linkReg s.pc

/-! ### Memory: the words themselves (R50 to R53) -/

/-- What an address reads as when memory does not list it: zero, the reset contents (R45, R78). -/
def unlistedWord : Word := 0

/-- The number of words in the address space (R50). -/
def memorySize : Nat := 65536

/-- The word at an address. -/
def Memory.readAt : Memory → Nat → Word
  | [], _ => unlistedWord
  | (k, v) :: m, a => if k = a then v else Memory.readAt m a

/-- Store a word, keeping addresses rising and listing no word equal to `unlistedWord`. -/
def Memory.writeAt : Memory → Nat → Word → Memory
  | [], a, v => if v = unlistedWord then [] else [(a, v)]
  | (k, x) :: m, a, v =>
    if k < a then (k, x) :: Memory.writeAt m a v
    else if k = a then (if v = unlistedWord then m else (a, v) :: m)
    else (if v = unlistedWord then (k, x) :: m else (a, v) :: (k, x) :: m)

/-- Canonical form from address `lo` on: addresses strictly rising, each a 16-bit address, no `unlistedWord`. -/
def Memory.wfFrom : Nat → Memory → Bool
  | _, [] => true
  | lo, (k, v) :: m => decide (lo ≤ k) && decide (k < memorySize) && decide (v ≠ unlistedWord) && Memory.wfFrom (k + 1) m

/-- The canonical form of memory. -/
def Memory.wf (m : Memory) : Bool := Memory.wfFrom 0 m

/-- M[a]. -/
def Memory.read (m : Memory) (a : Word) : Word := Memory.readAt m a.toNat

/-- M with v stored at a. -/
def Memory.write (m : Memory) (a v : Word) : Memory := Memory.writeAt m a.toNat v

/-- Raw(a): the stored word, with no poll and no side effect (R59). -/
def State.raw (s : State) (a : Word) : Word := s.mem.read a

/-- MemWrite(a, v): an unconditional store, with no other effect (R58). -/
def State.memWrite (s : State) (a v : Word) : State := { s with mem := s.mem.write a v }

/-! ### Bytes and words -/

/-- zext_16(b): bits [15:8] zero (R14). -/
def zext16 (b : Byte) : Word := b.setWidth 16

/-- w[7:0]. -/
def lowByte (w : Word) : Byte := w.extractLsb' 0 8

/-- w[15:8]. -/
def highByte (w : Word) : Byte := w.extractLsb' 8 8

/-! ### The console (R70 to R74) -/

/-- WriteChar of each byte in turn: each is appended to the output at once (R73, R155). -/
def State.sendBytes (s : State) (bs : List Byte) : State := { s with events := s.events ++ bs.map .writeChar }

/-- The byte an event sent, if it sent one. -/
def ConsoleEvent.sent : ConsoleEvent → Option Byte
  | .writeChar b => some b
  | .pollReady _ => none
  | .readChar => none

/-- The console output stream (R44): the bytes sent, in order. -/
def State.output (s : State) : List Byte := s.events.filterMap ConsoleEvent.sent

/-- The answer PollReady gives now: a draw of the environment, but true only if a byte is there to consume (R71). -/
def State.pollAnswer (s : State) : Bool := !s.input.isEmpty && s.polls.head?.getD (freePollReady s.pollCount)

/-- PollReady(): the request is made and its draw is used up; it never blocks (R71). -/
def State.askPoll (s : State) : State :=
  { s with
    polls := s.polls.tail
    pollCount := s.pollCount + 1
    events := s.events ++ [.pollReady s.pollAnswer] }

/-- The input stream without its next byte. -/
def State.setInput (s : State) (bs : List Byte) : State := { s with input := bs }

/-- The keyboard poll of a read of KBSR (R55): ready stages the next byte in KBDR and writes 0x8000 to KBSR, not ready
writes 0x0000 to KBSR. -/
def State.poll (s : State) : State :=
  match s.pollAnswer, s.input with
  | true, b :: rest => (((s.askPoll).setInput rest).memWrite s.cfg.kbsrAddr 0x8000).memWrite s.cfg.kbdrAddr (zext16 b)
  | _, _ => (s.askPoll).memWrite s.cfg.kbsrAddr 0x0000

/-- The state MemRead(a) leaves: a poll at KBSR_ADDR, no side effect anywhere else (R55, R56). -/
def State.afterRead (s : State) (a : Word) : State := if a = s.cfg.kbsrAddr then s.poll else s

/-- MemRead(a): the word, read after the poll, and the state it leaves (R55). -/
def memRead (a : Word) (s : State) : Word × State := ((s.afterRead a).raw a, s.afterRead a)

/-- The call of ReadChar, as the console observes it (R22, R72). -/
def State.askChar (s : State) : State := { s with events := s.events ++ [.readChar] }

/-- The step that is in progress after this one, if any. -/
def State.setInFlight (s : State) (r : Option Routine) : State := { s with inFlight := r }

/-- ReadChar's wait (R72): with a byte in the input stream it is consumed and `finish` runs; with none the step stays
in progress as routine `r`, and nothing more changes until a byte arrives (R147). -/
def awaitByte (r : Routine) (finish : Byte → State → State) (s : State) : State :=
  match s.input with
  | b :: rest => finish b ((s.setInput rest).setInFlight none)
  | [] => s.setInFlight (some r)

/-! ### Strings in memory (R145, R148 to R150) -/

/-- Go over successive words from `a`, sending what `sends` gives for each, until it gives none (a stopping word).
Answers the bytes sent and whether a stopping word was met within `n` words. -/
def scanWords (sends : Word → Option (List Byte)) (m : Memory) : Nat → Word → List Byte × Bool
  | 0, _ => ([], false)
  | n + 1, a =>
    match sends (m.read a) with
    | none => ([], true)
    | some bs => (bs ++ (scanWords sends m n (a + 1)).1, (scanWords sends m n (a + 1)).2)

/-- Send the string at `a` with Raw reads (R154). One pass over the 65536 words meets every word there is, so if it
meets no stopping word the routine never ends (R150): the step stays in progress as routine `r`, and the next pass
starts where this one began, since 65536 increments bring the address back to `a`. -/
def sendString (sends : Word → Option (List Byte)) (r : Routine) (a : Word) (s : State) : State :=
  let scan := scanWords sends s.mem memorySize a
  (s.sendBytes scan.1).setInFlight (if scan.2 then none else some r)

/-! ### The end of a run -/

/-- RUN <- v (R40). -/
def State.setRun (s : State) (v : RunState) : State := { s with run := v }

/-- raise IllegalInstruction(opcode, PC - 1) (R161): the core's one exception (R160). RUN <- Faulted, with the reason
recorded beside it (R162); nothing else changes (R103). There is no handler, no saved state and no return (R161), and
TRAP has none either (R169), so no operation of return stands beside this one. -/
def raiseIllegalInstruction (opcode : BitVec 4) (s : State) : State :=
  s.setRun (.faulted (.illegalInstruction opcode (s.pc - 1)))

/-- Whether the operator's stop is taken now: between steps, or while a step is blocked in ReadChar, and not inside
PUTS or PUTSP (R167, R172). DESIGN CHOICE (assumption 26): the spec does not say which comes first when a byte has
arrived for a blocked read and a stop is asked for; here the stop is taken, whatever the input holds. -/
def State.stopTaken (s : State) : Bool :=
  match s.inFlight with
  | none => s.hostStop
  | some .getc => s.hostStop
  | some .inChar => s.hostStop
  | some (.puts _) => false
  | some (.putsp _) => false

/-! ### Fetch -/

/-- Fetch and increment (R101): MemRead(PC), which polls if PC = KBSR_ADDR (R106), then PC <- PC + 1. -/
def fetch (s : State) : Word × State := ((memRead s.pc s).1, (memRead s.pc s).2.incPc)

end Sys2Proof.Machine
end

