-- ==== Sys2Proof/Machine/Flags.lean ====
section
/-! DEFINITION. The condition register: SetCC (R37), its one-hot encoding (R38) and the test of BR (R120). -/

namespace Sys2Proof.Machine

/-- The flag of a 16-bit result (R37). -/
def condOf (v : Word) : Cond := if v = 0 then .z else if v.getLsbD 15 then .n else .p

/-- SetCC(v) (R37): COND is fully overwritten. -/
def State.setCC (s : State) (v : Word) : State := { s with cond := condOf v }

/-- The one-hot encoding of COND: N = b100, Z = b010, P = b001 (R38). -/
def Cond.bits : Cond → BitVec 3
  | .n => 0b100
  | .z => 0b010
  | .p => 0b001

/-- The test of BR: instr[11:9] & COND != 0 (R38, R120). -/
def condTest (mask : BitVec 3) (c : Cond) : Bool := decide (mask &&& c.bits ≠ 0)

/-- R[DR] <- v, then SetCC(R[DR]): the write of every flag-defining instruction (R39). -/
def State.writeResult (s : State) (dr : Reg) (v : Word) : State := (s.setReg dr v).setCC v

end Sys2Proof.Machine
end

