-- ==== Sys2Proof/Machine/Operands.lean ====
section
/-! DEFINITION. Operand forms: sign extension (R14, R85 to R88) and the three addressing modes (R137). -/

namespace Sys2Proof.Machine

/-- sext_N(v): the N-bit field with its sign bit repeated up through bit 15 (R14). -/
def sext {n : Nat} (v : BitVec n) : Word := v.signExtend 16

/-- PC-relative by PCoffset9 (R87, R137); PC is the incremented one (R105). -/
def pcRelative9 (s : State) (offset9 : BitVec 9) : Word := s.pc + sext offset9

/-- PC-relative by PCoffset11 (R88). -/
def pcRelative11 (s : State) (offset11 : BitVec 11) : Word := s.pc + sext offset11

/-- Base plus offset6 (R86, R137). -/
def baseOffset (s : State) (baseR : Reg) (offset6 : BitVec 6) : Word := s.reg baseR + sext offset6

end Sys2Proof.Machine
end

