-- ==== Sys2Proof/Machine/Control.lean ====
section
/-! DEFINITION. BR, JMP, JSR and JSRR (R120 to R128). PC inside a rule is the incremented one (R105). -/

namespace Sys2Proof.Machine

/-- BR: if the mask meets COND, PC <- PC + sext_9 (R120). -/
def execBr (mask : BitVec 3) (offset9 : BitVec 9) (s : State) : Host.Outcome State Fault Refusal :=
  .next (if condTest mask s.cond then s.setPc (pcRelative9 s offset9) else s)

/-- JMP, and RET when BaseR is R7: PC <- R[BaseR] (R122, R123). -/
def execJmp (baseR : Reg) (s : State) : Host.Outcome State Fault Refusal :=
  .next (s.setPc (s.reg baseR))

/-- JSR: R[7] <- PC; PC <- PC + sext_11 (R124). -/
def execJsr (offset11 : BitVec 11) (s : State) : Host.Outcome State Fault Refusal :=
  .next (s.link.setPc (pcRelative11 s offset11))

/-- JSRR: R[7] <- PC and PC <- R[BaseR], the base read after the link write under LinkFirst and before it under
TargetFirst (R125). -/
def execJsrr (baseR : Reg) (s : State) : Host.Outcome State Fault Refusal :=
  match s.cfg.jsrrLinkOrder with
  | .linkFirst => .next (s.link.setPc (s.link.reg baseR))
  | .targetFirst => .next (s.link.setPc (s.reg baseR))

end Sys2Proof.Machine
end

