-- ==== Sys2Proof/Machine/Illegal.lean ====
section
/-! DEFINITION. The two illegal opcodes (R93): each takes the IllegalInstruction exception (R103, R161). -/

namespace Sys2Proof.Machine

/-- Opcode 0x8, the RTI slot (R161). -/
def execRtiSlot (s : State) : Host.Outcome State Fault Refusal := .next (raiseIllegalInstruction 0x8 s)

/-- Opcode 0xD, reserved (R161). -/
def execReservedSlot (s : State) : Host.Outcome State Fault Refusal := .next (raiseIllegalInstruction 0xD s)

end Sys2Proof.Machine
end

