-- ==== Sys2Proof/Machine/LoadStore.lean ====
section
/-! DEFINITION. LD, LDI, LDR, LEA, ST, STI and STR (R130 to R139). Every load and every pointer read is a MemRead, so
it polls at KBSR_ADDR. -/

namespace Sys2Proof.Machine

/-- R[DR] <- MemRead(a); SetCC(R[DR]): the common part of the loads. -/
def loadFrom (dr : Reg) (a : Word) (s : State) : State := (memRead a s).2.writeResult dr (memRead a s).1

/-- LD (R130). -/
def execLd (dr : Reg) (offset9 : BitVec 9) (s : State) : Host.Outcome State Fault Refusal :=
  .next (loadFrom dr (pcRelative9 s offset9) s)

/-- LDI: the pointer read, then the data read in the state the first one leaves (R131). -/
def execLdi (dr : Reg) (offset9 : BitVec 9) (s : State) : Host.Outcome State Fault Refusal :=
  .next (loadFrom dr (memRead (pcRelative9 s offset9) s).1 (memRead (pcRelative9 s offset9) s).2)

/-- LDR (R132). -/
def execLdr (dr baseR : Reg) (offset6 : BitVec 6) (s : State) : Host.Outcome State Fault Refusal :=
  .next (loadFrom dr (baseOffset s baseR offset6) s)

/-- LEA: the address itself, with no memory access (R133). -/
def execLea (dr : Reg) (offset9 : BitVec 9) (s : State) : Host.Outcome State Fault Refusal :=
  .next (s.writeResult dr (pcRelative9 s offset9))

/-- ST (R134). -/
def execSt (sr : Reg) (offset9 : BitVec 9) (s : State) : Host.Outcome State Fault Refusal :=
  .next (s.memWrite (pcRelative9 s offset9) (s.reg sr))

/-- STI: the pointer read, then the store (R135). -/
def execSti (sr : Reg) (offset9 : BitVec 9) (s : State) : Host.Outcome State Fault Refusal :=
  .next ((memRead (pcRelative9 s offset9) s).2.memWrite (memRead (pcRelative9 s offset9) s).1 (s.reg sr))

/-- STR (R136). -/
def execStr (sr baseR : Reg) (offset6 : BitVec 6) (s : State) : Host.Outcome State Fault Refusal :=
  .next (s.memWrite (baseOffset s baseR offset6) (s.reg sr))

end Sys2Proof.Machine
end

