-- ==== Sys2Proof/Machine/Trap.lean ====
section
/-! DEFINITION. TRAP and its built-in routines (R140 to R155). Each writes the link first and runs its routine inside
the same step; PC is not otherwise changed (R140). -/

namespace Sys2Proof.Machine

/-- The end of GETC, when its byte has come: R[0] <- zext_16(b); SetCC(R[0]) (R143). -/
def finishGetc (b : Byte) (s : State) : State := s.writeResult argReg (zext16 b)

/-- The end of IN: the echo, then as GETC (R146). -/
def finishIn (b : Byte) (s : State) : State := (s.sendBytes [b]).writeResult argReg (zext16 b)

/-- What PUTS sends for a word: bits [7:0]; none at a zero word, where it stops (R145). -/
def putsSends (w : Word) : Option (List Byte) := if w = 0 then none else some [lowByte w]

/-- What PUTSP sends for a word (R148): the low byte, then the high byte if it is not zero; none at a stopping word.
A zero low byte under a nonzero high byte stops under Truncate and sends 0x00 and the high byte under EmitNul (R149). -/
def putspSends (mode : PutspZeroLow) (w : Word) : Option (List Byte) :=
  if w = 0 then none
  else if lowByte w = 0 then
    match mode with
    | .truncate => none
    | .emitNul => some [0x00, highByte w]
  else some (lowByte w :: if highByte w = 0 then [] else [highByte w])

/-- PUTS from address a on (R145). -/
def putsFrom (a : Word) (s : State) : State := sendString putsSends (.puts a) a s

/-- PUTSP from address a on (R148). -/
def putspFrom (a : Word) (s : State) : State := sendString (putspSends s.cfg.putspZeroLow) (.putsp a) a s

/-- TRAP x20, GETC (R143). -/
def execTrapGetc (s : State) : Host.Outcome State Fault Refusal :=
  .next (awaitByte .getc finishGetc s.link.askChar)

/-- TRAP x21, OUT (R144). -/
def execTrapOut (s : State) : Host.Outcome State Fault Refusal :=
  .next (s.link.sendBytes [lowByte (s.link.reg argReg)])

/-- TRAP x22, PUTS (R145). -/
def execTrapPuts (s : State) : Host.Outcome State Fault Refusal :=
  .next (putsFrom (s.link.reg argReg) s.link)

/-- TRAP x23, IN (R146). -/
def execTrapIn (s : State) : Host.Outcome State Fault Refusal :=
  .next (awaitByte .inChar finishIn (s.link.sendBytes s.cfg.inPrompt).askChar)

/-- TRAP x24, PUTSP (R148). -/
def execTrapPutsp (s : State) : Host.Outcome State Fault Refusal :=
  .next (putspFrom (s.link.reg argReg) s.link)

/-- TRAP x25, HALT: the link, the notice, then RUN <- Halted (R151). -/
def execTrapHalt (s : State) : Host.Outcome State Fault Refusal :=
  .next ((s.link.sendBytes s.cfg.haltNotice).setRun .halted)

/-- TRAP with an unknown vector: the link write and nothing else (R152). -/
def execTrapUnknown (_trapvect8 : BitVec 8) (s : State) : Host.Outcome State Fault Refusal :=
  .next s.link

/-- Go on with a step in progress: a blocked ReadChar looks for its byte again (R147), and a string without a stopping
word goes round memory once more (R150). -/
def resume (r : Routine) (s : State) : State :=
  match r with
  | .getc => awaitByte .getc finishGetc s
  | .inChar => awaitByte .inChar finishIn s
  | .puts a => putsFrom a s
  | .putsp a => putspFrom a s

end Sys2Proof.Machine
end

