-- ==== Sys2Proof/Machine/Step.lean ====
section
/-! DEFINITION. The step (R100, R101) and the placing of one instruction where it is fetched. -/

namespace Sys2Proof.Machine

/-- One step. There is none while RUN is Halted or Faulted (R104), and none once the operator's stop is taken (R172);
a step in progress goes on (R147, R150); otherwise fetch, increment and execute (R101). -/
def step (s : State) : Host.Outcome State Fault Refusal :=
  match s.run with
  | .halted => .fault .halted
  | .faulted reason => .fault (.faulted reason)
  | .running =>
    if s.stopTaken then .fault .hostStop
    else
      match s.inFlight with
      | some r => .next (resume r s)
      | none => exec (decodeWord (fetch s).1) (fetch s).2

/-- The word w stored at PC, where step fetches, with the machine ready to fetch it: running, no step in progress and
no stop asked for. At PC = KBSR_ADDR a fetch executes the poll's result, whatever is stored (R106). -/
def State.withFetchWord (s : State) (nbits w : Nat) : State :=
  { s.memWrite s.pc (BitVec.ofNat 16 (w % 2 ^ nbits)) with run := .running, inFlight := none, hostStop := false }

end Sys2Proof.Machine
end

