-- ==== Sys2Proof/Machine/Loader.lean ====
section
/-! DEFINITION. The loader and the launch state (R194 to R198). The loader is an external agent (R6) that acts only
before the first step (R23); what it leaves in memory is part of every launch state (R197). -/

namespace Sys2Proof.Machine

/-- The bytes of an image file; `none` for a file that cannot be read (R198). -/
abbrev Image := Option (List Byte)

/-- The words of an image: each the byte pair (high byte, low byte); a trailing odd byte is ignored (R194, R196). -/
def imageWords : List Byte → List Word
  | high :: low :: rest => (high ++ low) :: imageWords rest
  | _ => []

/-- Program words go to successive addresses; those at or above 0x10000 are not loaded (R195, R196). -/
def placeWords (m : Memory) (a : Nat) : List Word → Memory
  | [] => m
  | w :: ws => if a < memorySize then placeWords (m.write (BitVec.ofNat 16 a) w) (a + 1) ws else m

/-- One image: its first word is the load origin, the others the program (R194). An image that holds no origin word is
a load failure, as an empty file is (R196). -/
def loadImage (m : Memory) (image : Image) : Option Memory :=
  match image with
  | none => none
  | some bytes =>
    match imageWords bytes with
    | [] => none
    | origin :: ws => some (placeWords m origin.toNat ws)

/-- What the command line comes to (R198). -/
inductive Launch where
  /-- No image path: the usage error, before any machine state is created. -/
  | usageError
  /-- The image with this index could not be loaded; no execution starts. -/
  | loadError (index : Nat)
  /-- The launch state. -/
  | started (s : State)
  deriving DecidableEq, Repr

/-- Images are loaded one after another, in command-line order, so a later one's words remain (R195). -/
def loadAll (cfg : Config) (m : Memory) (index : Nat) : List Image → Launch
  | [] => .started (State.powerOn cfg m)
  | image :: rest =>
    match loadImage m image with
    | none => .loadError index
    | some m' => loadAll cfg m' (index + 1) rest

/-- The launch of a machine with these parameters and images (R195, R197, R198). -/
def launch (cfg : Config) (images : List Image) : Launch :=
  match images with
  | [] => .usageError
  | image :: rest => loadAll cfg [] 0 (image :: rest)

end Sys2Proof.Machine
end

