-- ==== Sys2Proof/Machine/Ending.lean ====
section
/-! DEFINITION. The ways a run ends (R173) and the exit status the command line reports for each (R180). -/

namespace Sys2Proof.Machine

/-- The three ways a run ends (R173). -/
inductive RunEnd where
  | normalHalt
  | fault (reason : FaultReason)
  | hostStop
  deriving DecidableEq, Repr

/-- The end of a run that a step which does not happen tells of. -/
def Fault.runEnd : Fault → RunEnd
  | .halted => .normalHalt
  | .faulted reason => .fault reason
  | .hostStop => .hostStop

/-- The exit status of a run that has ended: 0 for the normal halt, EXIT_INTERRUPT for the host stop, the platform's
abort status for the illegal opcode (R173, R180). -/
def RunEnd.exitStatus (codes : ExitCodes) : RunEnd → Int
  | .normalHalt => 0
  | .fault _ => codes.abortStatus
  | .hostStop => codes.exitInterrupt

/-- The exit status of a launch that starts no run (R180, R198): EXIT_LOAD is one code, and the image that failed is
reported beside it, as the index in `Launch.loadError`. -/
def Launch.exitStatus (codes : ExitCodes) : Launch → Option Int
  | .usageError => some codes.exitUsage
  | .loadError _ => some codes.exitLoad
  | .started _ => none

end Sys2Proof.Machine
end

