-- ==== Sys2Proof/Machine/Environment.lean ====
section
/-! DEFINITION. What the outside world may do to the machine between two steps (R23, R24): deliver console input, fix
the next answers of PollReady, ask for a host stop. -/

namespace Sys2Proof.Machine

/-- Bytes arrive at the end of the console input stream (R44, R74). -/
def State.deliver (s : State) (bs : List Byte) : State := { s with input := s.input ++ bs }

/-- The environment settles the draws of PollReady requests after those already settled (R71). -/
def State.settlePolls (s : State) (answers : List Bool) : State := { s with polls := s.polls ++ answers }

/-- The operator asks for a host stop (R172). -/
def State.requestStop (s : State) : State := { s with hostStop := true }

end Sys2Proof.Machine
end

