-- ==== Sys2Proof/Safety.lean ====
section
/-! DEFINITION. What claims are stated in: safe runs, the states a run can reach, what an instruction leaves
unchanged, and the invariant of the machine. -/

namespace Sys2Proof.Machine

/-! ### Safe runs -/

/-- A run is safe for k steps when none of them is an illegal instruction: no state it passes is Faulted. -/
def SafeFor (k : Nat) (s : State) : Prop :=
  ∀ j ≤ k, ∀ t, core.run j s = .next t → ∀ reason, t.run ≠ .faulted reason

/-! ### The states a run can reach -/

/-- The states reachable from a launch by steps and by what the outside world does between them (R23, R197). -/
inductive Reachable : State → Prop where
  | launched {cfg : Config} {images : List Image} {s : State} : launch cfg images = .started s → Reachable s
  | step {s t : State} : Reachable s → Machine.step s = .next t → Reachable t
  | deliver {s : State} (bs : List Byte) : Reachable s → Reachable (s.deliver bs)
  | settlePolls {s : State} (answers : List Bool) : Reachable s → Reachable (s.settlePolls answers)
  | requestStop {s : State} : Reachable s → Reachable s.requestStop

/-! ### When a step fetches -/

/-- The machine is about to fetch: running, no step in progress, no stop asked for. -/
def State.Fetching (s : State) : Prop := s.run = .running ∧ s.inFlight = none ∧ s.hostStop = false

/-- The machine is about to execute the word w: it fetches, from an address that is not the keyboard-status word, where
memory holds w. -/
def State.About (s : State) (w : Word) : Prop := s.Fetching ∧ s.pc ≠ s.cfg.kbsrAddr ∧ s.raw s.pc = w

/-! ### Frames -/

/-- Every general register but those listed is unchanged. -/
def RegsKept (but : List Reg) (s t : State) : Prop := ∀ r, r ∉ but → t.reg r = s.reg r

/-- Every word of memory is unchanged. -/
def MemKept (s t : State) : Prop := ∀ a, t.raw a = s.raw a

/-- Every word of memory but the one at `a` is unchanged. -/
def MemKeptBut (a : Word) (s t : State) : Prop := ∀ b, b ≠ a → t.raw b = s.raw b

/-- The console input, the draws of PollReady and the requests made are unchanged. -/
def ConsoleKept (s t : State) : Prop :=
  t.input = s.input ∧ t.polls = s.polls ∧ t.pollCount = s.pollCount ∧ t.events = s.events

/-- The console input and the draws are unchanged, and the requests made since are exactly these. -/
def ConsoleAdds (new : List ConsoleEvent) (s t : State) : Prop :=
  t.input = s.input ∧ t.polls = s.polls ∧ t.pollCount = s.pollCount ∧ t.events = s.events ++ new

/-- RUN, the step in progress, the stop request and the parameters are unchanged. -/
def ControlKept (s t : State) : Prop :=
  t.run = s.run ∧ t.inFlight = s.inFlight ∧ t.hostStop = s.hostStop ∧ t.cfg = s.cfg

/-- The whole result of an instruction that writes `v` to its destination and sets COND from it: R[d] and COND, and
nothing else (PC is the incremented one already). -/
def RegisterResult (d : Reg) (v : Word) (s t : State) : Prop :=
  t.reg d = v ∧ t.cond = condOf v ∧ RegsKept [d] s t ∧ t.pc = s.pc ∧ MemKept s t ∧ ConsoleKept s t ∧ ControlKept s t

/-- The whole result of a load of address `a` into `d`: R[d] and COND from the word MemRead gives, memory and the
console as MemRead leaves them, and nothing else. Only a read of the keyboard-status word has a side effect, and that
one reaches no word of memory but the two keyboard words. -/
def LoadResult (d : Reg) (a : Word) (s t : State) : Prop :=
  t.reg d = (memRead a s).1 ∧ t.cond = condOf (memRead a s).1 ∧ RegsKept [d] s t ∧ t.pc = s.pc ∧
  MemKept (memRead a s).2 t ∧ ConsoleKept (memRead a s).2 t ∧ ControlKept s t ∧
  (a ≠ s.cfg.kbsrAddr → MemKept s t ∧ ConsoleKept s t) ∧
  (∀ b, b ≠ s.cfg.kbsrAddr → b ≠ s.cfg.kbdrAddr → t.raw b = s.raw b)

/-- The whole result of a store of `v` at `a`: that word of memory and nothing else. -/
def StoreResult (a v : Word) (s t : State) : Prop :=
  (s.mem.wf = true → t.raw a = v) ∧ MemKeptBut a s t ∧ RegsKept [] s t ∧ t.cond = s.cond ∧ t.pc = s.pc ∧
  ConsoleKept s t ∧ ControlKept s t

/-- The whole result of a jump to `target` that writes no link: PC and nothing else. -/
def JumpResult (target : Word) (s t : State) : Prop :=
  t.pc = target ∧ RegsKept [] s t ∧ t.cond = s.cond ∧ MemKept s t ∧ ConsoleKept s t ∧ ControlKept s t

/-- The whole result of a call of `target`: PC, the link in R7, and nothing else. -/
def CallResult (target : Word) (s t : State) : Prop :=
  t.pc = target ∧ t.reg 7 = s.pc ∧ RegsKept [7] s t ∧ t.cond = s.cond ∧ MemKept s t ∧ ConsoleKept s t ∧
  ControlKept s t

/-- What every TRAP does, whichever routine it selects: the link in R7, PC not otherwise changed, memory untouched, the
stop request and the parameters unchanged; of the other registers only those in `but` may change. -/
def TrapFrame (but : List Reg) (s t : State) : Prop :=
  t.reg 7 = s.pc ∧ RegsKept (7 :: but) s t ∧ t.pc = s.pc ∧ MemKept s t ∧ t.polls = s.polls ∧
  t.pollCount = s.pollCount ∧ t.hostStop = s.hostStop ∧ t.cfg = s.cfg

/-! ### What an instruction may write -/

/-- The destination register of a flag-defining instruction (R39). -/
def flagDest : Instr → Option Reg
  | .addReg d _ _ => some d
  | .addImm d _ _ => some d
  | .andReg d _ _ => some d
  | .andImm d _ _ => some d
  | .notReg d _ => some d
  | .ld d _ => some d
  | .ldi d _ => some d
  | .ldr d _ _ => some d
  | .lea d _ => some d
  | .trapGetc => some 0
  | .trapIn => some 0
  | .br _ _ => none
  | .jmp _ => none
  | .jsr _ => none
  | .jsrr _ => none
  | .st _ _ => none
  | .sti _ _ => none
  | .str _ _ _ => none
  | .trapOut => none
  | .trapPuts => none
  | .trapPutsp => none
  | .trapHalt => none
  | .trapUnknown _ => none
  | .rtiSlot => none
  | .reservedSlot => none

/-- The instructions that write the link into R7 (R33): JSR, JSRR and every TRAP. -/
def writesLink : Instr → Bool
  | .jsr _ => true
  | .jsrr _ => true
  | .trapGetc => true
  | .trapOut => true
  | .trapPuts => true
  | .trapIn => true
  | .trapPutsp => true
  | .trapHalt => true
  | .trapUnknown _ => true
  | .addReg _ _ _ | .addImm _ _ _ | .andReg _ _ _ | .andImm _ _ _ | .notReg _ _ | .br _ _ | .jmp _ | .ld _ _
  | .ldi _ _ | .ldr _ _ _ | .lea _ _ | .st _ _ | .sti _ _ | .str _ _ _ | .rtiSlot | .reservedSlot => false

/-- The registers an instruction may write. -/
def writtenRegs (i : Instr) : List Reg := (flagDest i).toList ++ (if writesLink i then [7] else [])

/-- The instructions that may change PC beyond the fetch increment (R36): BR, JMP, JSR and JSRR. -/
def writesPc : Instr → Bool
  | .br _ _ => true
  | .jmp _ => true
  | .jsr _ => true
  | .jsrr _ => true
  | .addReg _ _ _ | .addImm _ _ _ | .andReg _ _ _ | .andImm _ _ _ | .notReg _ _ | .ld _ _ | .ldi _ _
  | .ldr _ _ _ | .lea _ _ | .st _ _ | .sti _ _ | .str _ _ _ | .trapGetc | .trapOut | .trapPuts | .trapIn
  | .trapPutsp | .trapHalt | .trapUnknown _ | .rtiSlot | .reservedSlot => false

/-- The address an instruction stores to, computed as its meaning computes it (R61). -/
def storeAddress (i : Instr) (s : State) : Option Word :=
  match i with
  | .st _ o => some (pcRelative9 s o)
  | .sti _ o => some (memRead (pcRelative9 s o) s).1
  | .str _ b o => some (baseOffset s b o)
  | .addReg _ _ _ | .addImm _ _ _ | .andReg _ _ _ | .andImm _ _ _ | .notReg _ _ | .br _ _ | .jmp _ | .jsr _
  | .jsrr _ | .ld _ _ | .ldi _ _ | .ldr _ _ _ | .lea _ _ | .trapGetc | .trapOut | .trapPuts | .trapIn
  | .trapPutsp | .trapHalt | .trapUnknown _ | .rtiSlot | .reservedSlot => none

/-- The instructions that make a MemRead beyond their own fetch (R61). -/
def readsMemory : Instr → Bool
  | .ld _ _ => true
  | .ldi _ _ => true
  | .ldr _ _ _ => true
  | .sti _ _ => true
  | .addReg _ _ _ | .addImm _ _ _ | .andReg _ _ _ | .andImm _ _ _ | .notReg _ _ | .br _ _ | .jmp _ | .jsr _
  | .jsrr _ | .lea _ _ | .st _ _ | .str _ _ _ | .trapGetc | .trapOut | .trapPuts | .trapIn | .trapPutsp
  | .trapHalt | .trapUnknown _ | .rtiSlot | .reservedSlot => false

/-- The instructions whose routine sends bytes to the console (R175). -/
def sendsOutput : Instr → Bool
  | .trapOut => true
  | .trapPuts => true
  | .trapIn => true
  | .trapPutsp => true
  | .trapHalt => true
  | .addReg _ _ _ | .addImm _ _ _ | .andReg _ _ _ | .andImm _ _ _ | .notReg _ _ | .br _ _ | .jmp _ | .jsr _
  | .jsrr _ | .ld _ _ | .ldi _ _ | .ldr _ _ _ | .lea _ _ | .st _ _ | .sti _ _ | .str _ _ _ | .trapGetc
  | .trapUnknown _ | .rtiSlot | .reservedSlot => false

/-- The image file of program words `ws` loaded at `origin`: each word as (high byte, low byte), the origin first
(R194). -/
def imageBytes (origin : Word) (ws : List Word) : List Byte :=
  (origin :: ws).flatMap (fun w => [highByte w, lowByte w])

/-- The word a program of words `ws` at `origin` puts at address `a`, if it puts one there. -/
def loadedAt (origin : Word) (ws : List Word) (a : Word) : Option Word :=
  if origin.toNat ≤ a.toNat then ws[a.toNat - origin.toNat]? else none

/-! ### The invariant -/

/-- The word at which PUTSP stops: zero, or under Truncate any word with a zero low byte (R148, R149). -/
def putspStops (mode : PutspZeroLow) (w : Word) : Bool :=
  w == 0 || (mode == .truncate && lowByte w == 0)

/-- A routine is in progress for a good reason: R7 holds the link, and a string that goes round memory starts at R0 and
has no stopping word anywhere (R147, R150). -/
def RoutineSound (s : State) : Prop :=
  match s.inFlight with
  | none => True
  | some .getc => s.run = .running ∧ s.reg linkReg = s.pc
  | some .inChar => s.run = .running ∧ s.reg linkReg = s.pc
  | some (.puts a) => s.run = .running ∧ s.reg linkReg = s.pc ∧ a = s.reg argReg ∧ ∀ b, s.raw b ≠ 0
  | some (.putsp a) =>
    s.run = .running ∧ s.reg linkReg = s.pc ∧ a = s.reg argReg ∧ ∀ b, putspStops s.cfg.putspZeroLow (s.raw b) = false

/-- RUN is Faulted only by an illegal opcode, with PC at the illegal word's address plus 1 (R103, R161, R162). -/
def FaultSound (s : State) : Prop :=
  match s.run with
  | .running => True
  | .halted => True
  | .faulted (.illegalInstruction opcode address) => (opcode = 0x8 ∨ opcode = 0xD) ∧ s.pc = address + 1

/-- The invariant every step keeps: memory is in canonical form, and the step in progress and the fault record are
sound. -/
def Inv (s : State) : Prop := s.mem.wf = true ∧ RoutineSound s ∧ FaultSound s

end Sys2Proof.Machine
end

