-- ==== Sys2Proof/Certificates/Slice0/Obligations.lean ====
section
/-! DEFINITION. The statements for the provers: what the rules of spec/ say the machine does. Where a clause rests on a
decision the spec marks as its own (D<n> of 92_eei_decisions.md) or on a choice of the model (assumption <n>), the
docstring says so. -/

open Sys2Proof Sys2Proof.Machine

/-- For every well-formed instruction, with every operand at every value its field admits, decoding the encoded word
gives the instruction back. (30_encoding.md section 1, rule R82 (field layout, the spec's decision D3);
30_encoding.md rule R99) -/
def Obligations.DecodeOfEncodeIsTheInstruction : Prop :=
  ∀ i : Instr, i.wellFormed = true → decodeWord (encode i) = i

/-- For every one of the 65536 words the decoder gives a well-formed instruction, and encoding it gives a word that
agrees with the first on every bit the instruction uses (all but the bits R92 calls ignored); and a word that
agrees with another on every bit the other's instruction uses decodes to the same instruction, whatever its
ignored bits. (30_encoding.md rule R82 (decision D3); 30_encoding.md rule R92 (decision D4); 30_encoding.md rule
R99 (derived)) -/
def Obligations.DecodeReadsExactlyTheUsedBits : Prop :=
  ∀ w : Word, (decodeWord w).wellFormed = true ∧
    encode (decodeWord w) &&& usedBits (decodeWord w) = w &&& usedBits (decodeWord w) ∧
    ∀ w' : Word, w' &&& usedBits (decodeWord w) = w &&& usedBits (decodeWord w) → decodeWord w' = decodeWord w

/-- For every word the decoder gives what lookup in the rows of spec/opcode_table.json gives; every word matches a
row; and two different rows that match one word are a TRAP vector row and the row of the unknown vectors, which
the table's note ranks below it. (30_encoding.md rule R99 (derived); 30_encoding.md rule R95; opcode_table.json) -/
def Obligations.DecoderIsTheOpcodeTable : Prop :=
  ∀ w : Word, decodeByTable w = some (decodeWord w) ∧
    ∀ m n : Nat, ∀ r q : TableRow, opcodeTable[m]? = some r → opcodeTable[n]? = some q → m < n →
      r.matches w = true → q.matches w = true → 16 ≤ m ∧ m ≤ 21 ∧ n = 22

/-- Sixteen words written out in the worked examples and vectors of the spec, one or more of every family, decode to
the instructions the spec gives for them. (95_test_vectors.md part L2; 41_operate.md; 42_control.md;
43_load_store.md; 44_trap.md) -/
def Obligations.SpecWordsDecodeAsWritten : Prop :=
  decodeWord 0x1283 = .addReg 1 2 3 ∧ decodeWord 0x127F = .addImm 1 1 0b11111 ∧ decodeWord 0x5042 = .andReg 0 1 2 ∧
    decodeWord 0x997F = .notReg 4 5 ∧ decodeWord 0x0405 = .br 0b010 5 ∧ decodeWord 0xC1C0 = .jmp 7 ∧
    decodeWord 0x4FFF = .jsr 0b11111111111 ∧ decodeWord 0x4080 = .jsrr 2 ∧ decodeWord 0x2402 = .ld 2 2 ∧
    decodeWord 0x687E = .ldr 4 1 0b111110 ∧ decodeWord 0xEB00 = .lea 5 0b100000000 ∧
    decodeWord 0xB203 = .sti 1 3 ∧ decodeWord 0x7D5F = .str 6 5 31 ∧ decodeWord 0xF025 = .trapHalt ∧
    decodeWord 0xF0FF = .trapUnknown 0xFF ∧ decodeWord 0xDFFF = .reservedSlot

/-- A word of opcode 0xF decodes by its vector alone: 0x20 GETC, 0x21 OUT, 0x22 PUTS, 0x23 IN, 0x24 PUTSP, 0x25
HALT, and every other vector to the unknown-vector TRAP. (30_encoding.md rule R94 (vector numbers: decision
D16); 44_trap.md rule R141 (decision D16)) -/
def Obligations.TrapVectorsSelectRoutines : Prop :=
  ∀ w : Word, opcodeOf w = 0xF → ∀ v : BitVec 8, trapvect8Of w = v →
    (v = 0x20 → decodeWord w = .trapGetc) ∧ (v = 0x21 → decodeWord w = .trapOut) ∧
    (v = 0x22 → decodeWord w = .trapPuts) ∧ (v = 0x23 → decodeWord w = .trapIn) ∧
    (v = 0x24 → decodeWord w = .trapPutsp) ∧ (v = 0x25 → decodeWord w = .trapHalt) ∧
    (v.toNat < 0x20 ∨ 0x25 < v.toNat → decodeWord w = .trapUnknown v)

/-- For every field width N from 1 to 16 (the core uses 5, 6, 9 and 11): sext_N(v) is v when the sign bit of the
field is 0 and v + 0x10000 - 2^N when it is 1; and zext_16 of a byte is the byte with bits [15:8] zero. (R14) -/
def Obligations.SignExtensionReplicatesTheSignBit : Prop :=
  (∀ n : Nat, 0 < n → n ≤ 16 → ∀ v : BitVec n,
      (v.getLsbD (n - 1) = false → (sext v).toNat = v.toNat) ∧
      (v.getLsbD (n - 1) = true → (sext v).toNat = v.toNat + 0x10000 - 2 ^ n)) ∧
    ∀ b : Byte, (zext16 b).toNat = b.toNat

/-- SetCC(v) writes COND <- Z if v = 0, else N if bit 15 of v is 1, else P, whatever COND held before, and changes
nothing else; so COND is N, Z or P exactly as v, read as a two's-complement number, is negative, zero or
positive. (R37) -/
def Obligations.SetCCFollowsTheSign : Prop :=
  (∀ v : Word, (condOf v = .n ↔ v.toInt < 0) ∧ (condOf v = .z ↔ v.toInt = 0) ∧ (condOf v = .p ↔ 0 < v.toInt)) ∧
    ∀ (s : State) (v : Word),
    (v = 0 → s.setCC v = { s with cond := .z }) ∧
    (v ≠ 0 → v.getLsbD 15 = true → s.setCC v = { s with cond := .n }) ∧
    (v ≠ 0 → v.getLsbD 15 = false → s.setCC v = { s with cond := .p })

/-- A read of any address other than KBSR_ADDR, KBDR_ADDR among them, returns the word stored there and leaves the
whole state as it was: it polls nothing. (R56) -/
def Obligations.MemReadElsewhereHasNoSideEffect : Prop :=
  ∀ (a : Word) (s : State), a ≠ s.cfg.kbsrAddr → memRead a s = (s.raw a, s)

/-- A read of KBSR_ADDR makes one PollReady request. Its answer is the environment's next draw, but false when no
byte is there. Ready: the next byte is consumed and staged, zero-extended, in KBDR, and KBSR is written 0x8000
and returned. Not ready: KBSR is written 0x0000 and returned, and nothing is consumed. No other word, register
or control state changes. The model's own field polls, where it holds a draw, is that draw (assumption 2).
(20_memory.md rule R55 (decisions D9, D10); 20_memory.md rule R71 (decision D22)) -/
def Obligations.MemReadOfKbsrPolls : Prop :=
  ∀ s : State, s.mem.wf = true → s.cfg.kbsrAddr ≠ s.cfg.kbdrAddr →
    ∀ (v : Word) (t : State), memRead s.cfg.kbsrAddr s = (v, t) →
    ∃ ready : Bool, t.events = s.events ++ [.pollReady ready] ∧
      (s.input = [] → ready = false) ∧ (∀ d ds, s.input ≠ [] → s.polls = d :: ds → ready = d) ∧
      (ready = true → ∃ b rest, s.input = b :: rest ∧ t.input = rest ∧ v = 0x8000 ∧
        t.raw s.cfg.kbsrAddr = 0x8000 ∧ (t.raw s.cfg.kbdrAddr).toNat = b.toNat) ∧
      (ready = false → t.input = s.input ∧ v = 0x0000 ∧ t.raw s.cfg.kbsrAddr = 0x0000 ∧
        t.raw s.cfg.kbdrAddr = s.raw s.cfg.kbdrAddr) ∧
      (∀ a, a ≠ s.cfg.kbsrAddr → a ≠ s.cfg.kbdrAddr → t.raw a = s.raw a) ∧
      RegsKept [] s t ∧ t.pc = s.pc ∧ t.cond = s.cond ∧ ControlKept s t

/-- Reading KBSR_ADDR with no pending input returns a word whose high bit is 0. With pending input that PollReady
reports, it returns a word whose high bit is 1, and after any sequence of reads of other addresses a read of
KBDR_ADDR returns the staged character. That the whole word read back equals the byte is the zero extension of
decision D10 (assumption 17), and that the answer is the scripted draw polls = true :: ds is the model's form of
the environment's draw (assumption 2); a ready answer drawn from the free value is in MemReadOfKbsrPolls.
(20_memory.md rule R77; 20_memory.md rule R55 (decisions D9, D10); 20_memory.md rule R71 (decision D22);
assumptions 2 and 17) -/
def Obligations.StagedCharacterReadsBack : Prop :=
  ∀ s : State, s.mem.wf = true → s.cfg.kbsrAddr ≠ s.cfg.kbdrAddr →
    (s.input = [] → (memRead s.cfg.kbsrAddr s).1.getLsbD 15 = false) ∧
    (∀ b rest ds, s.input = b :: rest → s.polls = true :: ds →
      (memRead s.cfg.kbsrAddr s).1.getLsbD 15 = true ∧
      ∀ reads : List Word, (∀ a ∈ reads, a ≠ s.cfg.kbsrAddr) →
        (memRead s.cfg.kbdrAddr (reads.foldl (fun t a => (memRead a t).2) (memRead s.cfg.kbsrAddr s).2)).1.toNat
          = b.toNat)

/-- A store sets the word at its address, whatever the address, and changes no other word, no register, no other
state and nothing on the console. (R58) -/
def Obligations.MemWriteStoresOneWord : Prop :=
  ∀ (a v : Word) (s : State), StoreResult a v s (s.memWrite a v)

/-- After a store of any word to KBSR_ADDR, a MemRead of KBSR_ADDR returns the poll's 0x8000 or 0x0000, as if the
store had not happened: value and next state are the same as without it. (20_memory.md rule R60 (derived);
20_memory.md rule R55 (decisions D9, D10)) -/
def Obligations.StoreToKbsrIsNeverReadBack : Prop :=
  ∀ (s : State) (v : Word), s.mem.wf = true → s.cfg.kbsrAddr ≠ s.cfg.kbdrAddr →
    memRead s.cfg.kbsrAddr (s.memWrite s.cfg.kbsrAddr v) = memRead s.cfg.kbsrAddr s

/-- On canonical memory, two stores to different addresses give the same memory, cell for cell, in either order, and
a second store to an address leaves no trace of the first. (20_memory.md rules R53, R68 (derived); assumption 1
(the canonical form)) -/
def Obligations.StoresCommute : Prop :=
  ∀ (m : Memory) (a b v u : Word), m.wf = true →
    (a ≠ b → (m.write a v).write b u = (m.write b u).write a v) ∧ (m.write a v).write a u = m.write a u

/-- ADD in register form writes the sum of its source registers, read before the write and taken modulo 65536, to
DR, sets COND from it and changes nothing else. Every word of this form, whatever its ignored bits, decodes to
it (field positions: the spec's decision D3). It completes on every state and raises no exception. (R110) -/
def Obligations.AddRegisterForm : Prop :=
  (∀ w : Word, opcodeOf w = 0x1 → modeBit w = false → decodeWord w = .addReg (fieldA w) (fieldB w) (fieldC w)) ∧
    ∀ (d a b : Reg) (s : State), ∃ t, exec (.addReg d a b) s = .next t ∧ RegisterResult d (s.reg a + s.reg b) s t

/-- ADD in immediate form writes the source register plus the sign-extended immediate, modulo 65536, to DR, sets
COND from it and changes nothing else. Every word of this form, whatever its ignored bits, decodes to it (field
positions: the spec's decision D3). It completes on every state and raises no exception. (R111) -/
def Obligations.AddImmediateForm : Prop :=
  (∀ w : Word, opcodeOf w = 0x1 → modeBit w = true → decodeWord w = .addImm (fieldA w) (fieldB w) (imm5Of w)) ∧
    ∀ (d a : Reg) (i : BitVec 5) (s : State), ∃ t, exec (.addImm d a i) s = .next t ∧ RegisterResult d (s.reg a + sext i) s t

/-- AND in register form writes the bitwise AND of its source registers to DR, sets COND from it and changes nothing
else. Every word of this form, whatever its ignored bits, decodes to it (field positions: the spec's decision
D3). It completes on every state and raises no exception. (R112) -/
def Obligations.AndRegisterForm : Prop :=
  (∀ w : Word, opcodeOf w = 0x5 → modeBit w = false → decodeWord w = .andReg (fieldA w) (fieldB w) (fieldC w)) ∧
    ∀ (d a b : Reg) (s : State), ∃ t, exec (.andReg d a b) s = .next t ∧ RegisterResult d (s.reg a &&& s.reg b) s t

/-- AND in immediate form writes the bitwise AND of the source register and the sign-extended immediate to DR, sets
COND from it and changes nothing else. Every word of this form, whatever its ignored bits, decodes to it (field
positions: the spec's decision D3). It completes on every state and raises no exception. (R113) -/
def Obligations.AndImmediateForm : Prop :=
  (∀ w : Word, opcodeOf w = 0x5 → modeBit w = true → decodeWord w = .andImm (fieldA w) (fieldB w) (imm5Of w)) ∧
    ∀ (d a : Reg) (i : BitVec 5) (s : State), ∃ t, exec (.andImm d a i) s = .next t ∧ RegisterResult d (s.reg a &&& sext i) s t

/-- NOT writes the complement of its source register, 0xFFFF minus it, to DR, sets COND from it and changes nothing
else. Every word of this form, whatever its ignored bits, decodes to it (field positions: the spec's decision
D3). It completes on every state and raises no exception. (R114) -/
def Obligations.NotComplements : Prop :=
  (∀ w : Word, opcodeOf w = 0x9 → decodeWord w = .notReg (fieldA w) (fieldB w)) ∧
    ∀ (d a : Reg) (s : State), ∃ t, exec (.notReg d a) s = .next t ∧ RegisterResult d (0xFFFF - s.reg a) s t

/-- When SR2 holds the value the sign-extended immediate has, ADD in register form and ADD in immediate form give
the same next state, and so do the two forms of AND. (41_operate.md rule R117 (derived)) -/
def Obligations.FormsAgree : Prop :=
  ∀ (d a b : Reg) (i : BitVec 5) (s : State), s.reg b = sext i →
    exec (.addReg d a b) s = exec (.addImm d a i) s ∧ exec (.andReg d a b) s = exec (.andImm d a i) s

/-- BR adds the sign-extended offset to the incremented PC exactly when the mask has the bit of the flag COND holds
(n for N, z for Z, p for P), and otherwise changes nothing; it writes nothing but PC. Mask 000 never branches
and mask 111 always does. Every word of this form, whatever its ignored bits, decodes to it (field positions:
the spec's decision D3). It completes on every state and raises no exception. (42_control.md rule R120 (decision
D5); 42_control.md rule R121 (derived); 10_state.md rule R38 (decision D5)) -/
def Obligations.BranchTestsTheMask : Prop :=
  (∀ w : Word, opcodeOf w = 0x0 → decodeWord w = .br (fieldA w) (offset9Of w)) ∧
    ∀ (mask : BitVec 3) (o : BitVec 9) (s : State), ∃ t, exec (.br mask o) s = .next t ∧
      JumpResult (if (mask.getLsbD 2 = true ∧ s.cond = .n) ∨ (mask.getLsbD 1 = true ∧ s.cond = .z) ∨
        (mask.getLsbD 0 = true ∧ s.cond = .p) then s.pc + sext o else s.pc) s t

/-- JMP writes the base register to PC and nothing else; RET, the word 0xC1C0, is JMP with base R7. Every word of
this form, whatever its ignored bits, decodes to it (field positions: the spec's decision D3). It completes on
every state and raises no exception. (R122; R123) -/
def Obligations.JumpGoesToTheBase : Prop :=
  (∀ w : Word, opcodeOf w = 0xC → decodeWord w = .jmp (fieldB w)) ∧ decodeWord 0xC1C0 = .jmp 7 ∧
    ∀ (b : Reg) (s : State), ∃ t, exec (.jmp b) s = .next t ∧ JumpResult (s.reg b) s t

/-- JSR writes the incremented PC to R7 and adds the sign-extended offset to PC; COND, memory and every other
register are unchanged. Every word of this form, whatever its ignored bits, decodes to it (field positions: the
spec's decision D3). It completes on every state and raises no exception. (R124) -/
def Obligations.JsrLinksAndJumps : Prop :=
  (∀ w : Word, opcodeOf w = 0x4 → longBit w = true → decodeWord w = .jsr (offset11Of w)) ∧
    ∀ (o : BitVec 11) (s : State), ∃ t, exec (.jsr o) s = .next t ∧ CallResult (s.pc + sext o) s t

/-- JSRR writes the incremented PC to R7 and the base register to PC. With a base other than R7 the order does not
matter. With base R7 it falls through to the next instruction under LinkFirst, and jumps to the old R7 under
TargetFirst. Nothing else changes. Every word of this form, whatever its ignored bits, decodes to it (field
positions: the spec's decision D3). It completes on every state and raises no exception. (42_control.md rule
R125 (decision D15)) -/
def Obligations.JsrrLinksAndJumps : Prop :=
  (∀ w : Word, opcodeOf w = 0x4 → longBit w = false → decodeWord w = .jsrr (fieldB w)) ∧
    ∀ (b : Reg) (s : State), ∃ t, exec (.jsrr b) s = .next t ∧
      CallResult (if b = 7 ∧ s.cfg.jsrrLinkOrder = .linkFirst then s.pc else s.reg b) s t

/-- LD reads the word at PC + sext_9(offset) with MemRead, writes it to DR and sets COND from it; the read's own
effect aside, nothing else changes. Every word of this form, whatever its ignored bits, decodes to it (field
positions: the spec's decision D3). It completes on every state and raises no exception. (R130) -/
def Obligations.LoadPcRelative : Prop :=
  (∀ w : Word, opcodeOf w = 0x2 → decodeWord w = .ld (fieldA w) (offset9Of w)) ∧
    ∀ (d : Reg) (o : BitVec 9) (s : State), ∃ t, exec (.ld d o) s = .next t ∧ LoadResult d (s.pc + sext o) s t

/-- LDI reads a pointer with MemRead and then, in the state that read leaves, the word at the pointer with MemRead;
it writes that word to DR and sets COND from it. Each of the two reads polls if its address is KBSR_ADDR; a
pointer read elsewhere changes nothing. Every word of this form, whatever its ignored bits, decodes to it (field
positions: the spec's decision D3). It completes on every state and raises no exception. (R131) -/
def Obligations.LoadIndirect : Prop :=
  (∀ w : Word, opcodeOf w = 0xA → decodeWord w = .ldi (fieldA w) (offset9Of w)) ∧
    ∀ (d : Reg) (o : BitVec 9) (s : State), ∃ t, exec (.ldi d o) s = .next t ∧
      LoadResult d (memRead (s.pc + sext o) s).1 (memRead (s.pc + sext o) s).2 t ∧
      RegsKept [d] s t ∧ t.pc = s.pc ∧ ControlKept s t ∧
      (∀ a, a ≠ s.cfg.kbsrAddr → a ≠ s.cfg.kbdrAddr → t.raw a = s.raw a) ∧
      (s.pc + sext o ≠ s.cfg.kbsrAddr → s.raw (s.pc + sext o) ≠ s.cfg.kbsrAddr →
        t.reg d = s.raw (s.raw (s.pc + sext o)) ∧ MemKept s t ∧ ConsoleKept s t)

/-- LDR reads the word at R[BaseR] + sext_6(offset), the base read before the write, with MemRead, writes it to DR
and sets COND from it; the read's own effect aside, nothing else changes. Every word of this form, whatever its
ignored bits, decodes to it (field positions: the spec's decision D3). It completes on every state and raises no
exception. (R132) -/
def Obligations.LoadBaseOffset : Prop :=
  (∀ w : Word, opcodeOf w = 0x6 → decodeWord w = .ldr (fieldA w) (fieldB w) (offset6Of w)) ∧
    ∀ (d b : Reg) (o : BitVec 6) (s : State), ∃ t, exec (.ldr d b o) s = .next t ∧
      LoadResult d (s.reg b + sext o) s t

/-- LEA writes the address PC + sext_9(offset) to DR and sets COND from it; it reads no memory and polls nothing,
even at KBSR_ADDR. Every word of this form, whatever its ignored bits, decodes to it (field positions: the
spec's decision D3). It completes on every state and raises no exception. (R133) -/
def Obligations.LoadEffectiveAddress : Prop :=
  (∀ w : Word, opcodeOf w = 0xE → decodeWord w = .lea (fieldA w) (offset9Of w)) ∧
    ∀ (d : Reg) (o : BitVec 9) (s : State), ∃ t, exec (.lea d o) s = .next t ∧ RegisterResult d (s.pc + sext o) s t

/-- ST stores the source register at PC + sext_9(offset), whatever that address is, and changes no other word, no
register and no flag. Every word of this form, whatever its ignored bits, decodes to it (field positions: the
spec's decision D3). It completes on every state and raises no exception. (R134) -/
def Obligations.StorePcRelative : Prop :=
  (∀ w : Word, opcodeOf w = 0x3 → decodeWord w = .st (fieldA w) (offset9Of w)) ∧
    ∀ (r : Reg) (o : BitVec 9) (s : State), ∃ t, exec (.st r o) s = .next t ∧
      StoreResult (s.pc + sext o) (s.reg r) s t

/-- STI reads a pointer with MemRead, polling if it stands at KBSR_ADDR, and stores the source register at the
address the pointer gives; beyond the read's own effect no other word, no register and no flag changes. Every
word of this form, whatever its ignored bits, decodes to it (field positions: the spec's decision D3). It
completes on every state and raises no exception. (R135) -/
def Obligations.StoreIndirect : Prop :=
  (∀ w : Word, opcodeOf w = 0xB → decodeWord w = .sti (fieldA w) (offset9Of w)) ∧
    ∀ (r : Reg) (o : BitVec 9) (s : State), ∃ t, exec (.sti r o) s = .next t ∧
      StoreResult (memRead (s.pc + sext o) s).1 (s.reg r) (memRead (s.pc + sext o) s).2 t ∧
      RegsKept [] s t ∧ t.cond = s.cond ∧ t.pc = s.pc ∧ ControlKept s t ∧
      (s.pc + sext o ≠ s.cfg.kbsrAddr → StoreResult (s.raw (s.pc + sext o)) (s.reg r) s t)

/-- STR stores the source register at R[BaseR] + sext_6(offset), modulo 65536, and changes no other word, no
register and no flag. Every word of this form, whatever its ignored bits, decodes to it (field positions: the
spec's decision D3). It completes on every state and raises no exception. (R136) -/
def Obligations.StoreBaseOffset : Prop :=
  (∀ w : Word, opcodeOf w = 0x7 → decodeWord w = .str (fieldA w) (fieldB w) (offset6Of w)) ∧
    ∀ (r b : Reg) (o : BitVec 6) (s : State), ∃ t, exec (.str r b o) s = .next t ∧
      StoreResult (s.reg b + sext o) (s.reg r) s t

/-- With a byte in the input stream GETC writes the link, consumes the byte, writes it zero-extended to R0, sets
COND to Z for a zero byte and P otherwise, and sends nothing. (44_trap.md rule R143 (decisions D10, D21);
44_trap.md rule R140) -/
def Obligations.GetcReadsOneByte : Prop :=
  ∀ (s : State) (b : Byte) (rest : List Byte), s.input = b :: rest →
    ∃ t, exec .trapGetc s = .next t ∧ TrapFrame [0] s t ∧ (t.reg 0).toNat = b.toNat ∧
      t.cond = (if b = 0 then .z else .p) ∧ t.input = rest ∧ t.events = s.events ++ [.readChar] ∧
      t.run = s.run ∧ t.inFlight = none

/-- OUT writes the link and sends bits [7:0] of R0; R0, COND and memory are unchanged. (44_trap.md rule R144
(decision D35); 44_trap.md rule R140) -/
def Obligations.OutSendsTheLowByte : Prop :=
  ∀ s : State, ∃ t, exec .trapOut s = .next t ∧ TrapFrame [] s t ∧ t.cond = s.cond ∧ t.input = s.input ∧
    t.events = s.events ++ [.writeChar (BitVec.ofNat 8 ((s.reg 0).toNat % 256))] ∧
    t.run = s.run ∧ t.inFlight = s.inFlight

/-- Where the first zero word from the address in R0 on is k words away (addresses modulo 65536), PUTS writes the
link and sends bits [7:0] of each of those k words, in order, and completes; R0, COND and memory are unchanged,
and nothing is polled. (44_trap.md rule R145 (decisions D12, D13, D35); 44_trap.md rule R154 (decision D12)) -/
def Obligations.PutsSendsUpToAZeroWord : Prop :=
  ∀ (s : State) (k : Nat), k < 65536 → (∀ j < k, s.raw (s.reg 0 + BitVec.ofNat 16 j) ≠ 0) →
    s.raw (s.reg 0 + BitVec.ofNat 16 k) = 0 →
    ∃ t, exec .trapPuts s = .next t ∧ TrapFrame [] s t ∧ t.cond = s.cond ∧ t.input = s.input ∧
      t.events = s.events ++
        (List.range k).map (fun j => .writeChar (lowByte (s.raw (s.reg 0 + BitVec.ofNat 16 j)))) ∧
      t.run = s.run ∧ t.inFlight = none

/-- With a byte in the input stream IN writes the link, sends the bytes of IN_PROMPT, reads one byte, sends it back,
writes it zero-extended to R0 and sets COND to Z for a zero byte and P otherwise. (44_trap.md rule R146
(decisions D10, D17, D21); 44_trap.md rule R140) -/
def Obligations.InPromptsReadsAndEchoes : Prop :=
  ∀ (s : State) (b : Byte) (rest : List Byte), s.input = b :: rest →
    ∃ t, exec .trapIn s = .next t ∧ TrapFrame [0] s t ∧ (t.reg 0).toNat = b.toNat ∧
      t.cond = (if b = 0 then .z else .p) ∧ t.input = rest ∧
      t.events = s.events ++ s.cfg.inPrompt.map .writeChar ++ [.readChar, .writeChar b] ∧
      t.run = s.run ∧ t.inFlight = none

/-- Where the first stopping word from the address in R0 on is k words away, PUTSP writes the link and sends, for
each of those k words, the low byte and then the high byte if it is not zero, and completes. A stopping word is
a zero word, and under PUTSP_ZERO_LOW = Truncate also a word with a zero low byte; under EmitNul such a word
sends 0x00 and its high byte. R0, COND and memory are unchanged, and nothing is polled. (44_trap.md rule R148
(decisions D12 to D14); 44_trap.md rule R149 (decision D14)) -/
def Obligations.PutspSendsPackedBytes : Prop :=
  ∀ (s : State) (k : Nat), k < 65536 →
    (∀ j < k, s.raw (s.reg 0 + BitVec.ofNat 16 j) ≠ 0 ∧
      (s.cfg.putspZeroLow = .truncate → lowByte (s.raw (s.reg 0 + BitVec.ofNat 16 j)) ≠ 0)) →
    (s.raw (s.reg 0 + BitVec.ofNat 16 k) = 0 ∨
      (s.cfg.putspZeroLow = .truncate ∧ lowByte (s.raw (s.reg 0 + BitVec.ofNat 16 k)) = 0)) →
    ∃ t, exec .trapPutsp s = .next t ∧ TrapFrame [] s t ∧ t.cond = s.cond ∧ t.input = s.input ∧
      t.events = s.events ++ ((List.range k).flatMap (fun j =>
        lowByte (s.raw (s.reg 0 + BitVec.ofNat 16 j)) ::
          (if highByte (s.raw (s.reg 0 + BitVec.ofNat 16 j)) = 0 then []
            else [highByte (s.raw (s.reg 0 + BitVec.ofNat 16 j))]))).map .writeChar ∧
      t.run = s.run ∧ t.inFlight = none

/-- HALT writes the link, sends the bytes of HALT_NOTICE and sets RUN to Halted; PC keeps the incremented value and
no step follows. (44_trap.md rule R151 (decisions D17, D19, D33); 40_fetch_dispatch.md rule R104) -/
def Obligations.HaltSendsItsNoticeAndHalts : Prop :=
  ∀ s : State, ∃ t, exec .trapHalt s = .next t ∧ TrapFrame [] s t ∧ t.cond = s.cond ∧ t.input = s.input ∧
    t.events = s.events ++ s.cfg.haltNotice.map .writeChar ∧ t.run = .halted ∧ t.inFlight = s.inFlight ∧
    step t = .fault .halted

/-- A TRAP whose vector is none of 0x20 to 0x25 writes the incremented PC to R7 and changes nothing else: no console
request, no memory access, COND and PC as they were. (44_trap.md rule R152 (decision D16); 90_conflicts.md C3) -/
def Obligations.UnknownVectorOnlyLinks : Prop :=
  ∀ (v : BitVec 8) (s : State), ∃ t, exec (.trapUnknown v) s = .next t ∧ CallResult s.pc s t

/-- A word of opcode 0x8 or 0xD, whatever its other bits, decodes to an illegal instruction. Executing it takes the
IllegalInstruction exception: RUN becomes Faulted with the opcode and PC - 1 recorded, nothing else changes, and
no step follows. (60_exceptions.md rules R161, R162 (decision D20); 30_encoding.md rule R93 (decision D2);
40_fetch_dispatch.md rule R103 (decision D20)) -/
def Obligations.IllegalOpcodeFaults : Prop :=
  (∀ w : Word, opcodeOf w = 0x8 → decodeWord w = .rtiSlot) ∧
    (∀ w : Word, opcodeOf w = 0xD → decodeWord w = .reservedSlot) ∧
    (∀ s : State, ∃ t, exec .rtiSlot s = .next t ∧
      t = { s with run := .faulted (.illegalInstruction 0x8 (s.pc - 1)) } ∧
      step t = .fault (.faulted (.illegalInstruction 0x8 (s.pc - 1)))) ∧
    (∀ s : State, ∃ t, exec .reservedSlot s = .next t ∧
      t = { s with run := .faulted (.illegalInstruction 0xD (s.pc - 1)) } ∧
      step t = .fault (.faulted (.illegalInstruction 0xD (s.pc - 1))))

/-- With no byte in the input stream GETC and IN do not complete: the link is written and, for IN, the prompt is
sent, while R0 and COND are unchanged. Each further step leaves that state as it is (stuck, neither Halted nor
Faulted), and once bytes arrive the next step gives exactly the state that the instruction gives when they are
there from the start. That a blocked step stands as a state of its own is the model's choice (assumption 3).
(44_trap.md rule R147 (decision D21); 20_memory.md rule R72 (decision D21); 60_exceptions.md rule R178;
assumption 3) -/
def Obligations.BlockedReadWaitsAndGoesOn : Prop :=
  ∀ s : State, s.run = .running → s.hostStop = false → s.input = [] →
    (∃ t, exec .trapGetc s = .next t ∧ TrapFrame [] s t ∧ t.cond = s.cond ∧ t.run = .running ∧
      t.events = s.events ++ [.readChar] ∧ step t = .next t ∧
      ∀ b rest, step (t.deliver (b :: rest)) = exec .trapGetc (s.deliver (b :: rest))) ∧
    (∃ t, exec .trapIn s = .next t ∧ TrapFrame [] s t ∧ t.cond = s.cond ∧ t.run = .running ∧
      t.events = s.events ++ s.cfg.inPrompt.map .writeChar ++ [.readChar] ∧ step t = .next t ∧
      ∀ b rest, step (t.deliver (b :: rest)) = exec .trapIn (s.deliver (b :: rest)))

/-- If no word of memory stops the routine, PUTS (and PUTSP) never completes: the link is written and the bytes of
all 65536 words from the address in R0 on are sent in order (bits [7:0] of each for PUTS; for PUTSP the low byte
and then the high byte if it is not zero, under both values of PUTSP_ZERO_LOW); and for every k, k further steps
send the same bytes k more times and change nothing else, even when a host stop is asked for. That the step in
progress stands as a state of its own, one pass a step, is the model's choice (assumption 3). (44_trap.md rule
R150 (decision D13); 44_trap.md rule R149 (decision D14); 60_exceptions.md rules R167, R172 (decision D23);
assumption 3) -/
def Obligations.EndlessStringNeverCompletes : Prop :=
  ∀ s : State, s.run = .running →
    ((∀ a, s.raw a ≠ 0) → ∃ (t : State) (bytes : List Byte), exec .trapPuts s = .next t ∧
      bytes = (List.range memorySize).map (fun j => lowByte (s.raw (s.reg 0 + BitVec.ofNat 16 j))) ∧
      TrapFrame [] s t ∧ t.cond = s.cond ∧ t.run = .running ∧ t.input = s.input ∧
      t.events = s.events ++ bytes.map .writeChar ∧
      ∀ k, core.run k t = .next { t with events := t.events ++ (List.replicate k (bytes.map .writeChar)).flatten }) ∧
    ((∀ a, s.raw a ≠ 0 ∧ (s.cfg.putspZeroLow = .truncate → lowByte (s.raw a) ≠ 0)) →
      ∃ (t : State) (bytes : List Byte), exec .trapPutsp s = .next t ∧
        bytes = (List.range memorySize).flatMap (fun j =>
          lowByte (s.raw (s.reg 0 + BitVec.ofNat 16 j)) ::
            (if highByte (s.raw (s.reg 0 + BitVec.ofNat 16 j)) = 0 then []
              else [highByte (s.raw (s.reg 0 + BitVec.ofNat 16 j))])) ∧
        TrapFrame [] s t ∧ t.cond = s.cond ∧ t.run = .running ∧ t.input = s.input ∧
        t.events = s.events ++ bytes.map .writeChar ∧
        ∀ k, core.run k t = .next { t with events := t.events ++ (List.replicate k (bytes.map .writeChar)).flatten })

/-- In a running machine with no step in progress and no stop asked for, a step is the execution of the instruction
decoded from MemRead(PC), in the state that read leaves with PC incremented modulo 65536. Where PC is not
KBSR_ADDR that is the stored word and the state itself with PC incremented. (The conditions on the model's own
fields are assumptions 3 and 5.) (R101) -/
def Obligations.StepRunsTheDecodedInstruction : Prop :=
  (∀ s : State, s.Fetching →
      step s = exec (decodeWord (memRead s.pc s).1) { (memRead s.pc s).2 with pc := s.pc + 1 }) ∧
    ∀ (s : State) (w : Word), s.About w → step s = exec (decodeWord w) { s with pc := s.pc + 1 }

/-- A step with PC = KBSR_ADDR polls, whatever word is stored there. Ready (whatever the draw comes from; a true
draw with a byte there is ready): the word executed is 0x8000, so the machine is Faulted with opcode 0x8
recorded and the next byte is consumed and staged in KBDR. Not ready (no byte there, or a false draw with or
without pending input): the word executed is 0x0000, so PC advances by 1, nothing is consumed, and COND, the
registers and every word but KBSR are unchanged. (The draws in the model's field polls and the free value are
assumption 2.) (40_fetch_dispatch.md rule R106 (decision D11); 20_memory.md rules R55, R71 (decisions D9, D10,
D22); 95_test_vectors.md V80, V81; assumption 2) -/
def Obligations.FetchFromKbsrExecutesThePoll : Prop :=
  ∀ s : State, s.Fetching → s.pc = s.cfg.kbsrAddr → s.mem.wf = true → s.cfg.kbsrAddr ≠ s.cfg.kbdrAddr →
    (s.input ≠ [] → (∃ ds, s.polls = true :: ds) → s.pollAnswer = true) ∧
    (s.input = [] ∨ (∃ ds, s.polls = false :: ds) → s.pollAnswer = false) ∧
    (s.pollAnswer = true → ∃ b rest t, s.input = b :: rest ∧ step s = .next t ∧
      t.run = .faulted (.illegalInstruction 0x8 s.cfg.kbsrAddr) ∧ t.pc = s.pc + 1 ∧ t.input = rest ∧
      t.raw s.cfg.kbsrAddr = 0x8000 ∧ (t.raw s.cfg.kbdrAddr).toNat = b.toNat ∧ RegsKept [] s t ∧ t.cond = s.cond) ∧
    (s.pollAnswer = false → ∃ t, step s = .next t ∧ t.run = .running ∧ t.pc = s.pc + 1 ∧ t.input = s.input ∧
      t.raw s.cfg.kbsrAddr = 0x0000 ∧ (∀ a, a ≠ s.cfg.kbsrAddr → t.raw a = s.raw a) ∧
      RegsKept [] s t ∧ t.cond = s.cond)

/-- In a Halted machine, and in a Faulted one, step answers no next state: nothing is fetched, nothing changes and
the console gets no request. The answer says which end it was: the normal one after a HALT trap, the abnormal
one after an illegal opcode. (R104 says only that there is no step; that step answers the faults halted and
faulted for it is the model's, assumption 6.) (40_fetch_dispatch.md rule R104; 60_exceptions.md rule R173
(decisions D19, D23); assumption 6) -/
def Obligations.NoStepAfterTheEnd : Prop :=
  (∀ s : State, (s.run = .halted → step s = .fault .halted) ∧
      (∀ reason, s.run = .faulted reason → step s = .fault (.faulted reason))) ∧
    (∀ s t : State, exec .trapHalt s = .next t → step t = .fault .halted) ∧
    ∀ s t : State, exec .rtiSlot s = .next t ∨ exec .reservedSlot s = .next t →
      ∃ reason, step t = .fault (.faulted reason)

/-- In a running machine with a stop asked for and either no step in progress or one blocked in ReadChar, step
answers the host stop and writes no state. For every value of the open exit codes the exit status is
EXIT_INTERRUPT after a host stop, 0 after a HALT, the platform's abort status after an illegal opcode,
EXIT_USAGE for a launch with no image and EXIT_LOAD for one whose image fails, whichever image it is; a launch
that starts has none. If the codes are distinct and nonzero, the host stop and the two launch errors have
different statuses, none of them that of a HALT. (The stop request as a field of State is the model's choice,
assumption 5; so is that in a blocked read the stop is taken even when a byte has arrived, assumption 26; the
codes as an argument are assumption 13; that step answers a fault for each end is assumption 6.)
(60_exceptions.md rule R172 (decision D23); 60_exceptions.md rules R173, R180 (decision D25);
70_reset_and_hazards.md rule R198 (decision D25); assumptions 5, 6, 13 and 26) -/
def Obligations.HostStopIsTakenBetweenSteps : Prop :=
  (∀ s : State, s.run = .running → s.hostStop = true →
      (s.inFlight = none ∨ s.inFlight = some .getc ∨ s.inFlight = some .inChar) → step s = .fault .hostStop) ∧
    ∀ codes : ExitCodes, Fault.hostStop.runEnd.exitStatus codes = codes.exitInterrupt ∧
      Fault.halted.runEnd.exitStatus codes = 0 ∧
      (∀ reason, (Fault.faulted reason).runEnd.exitStatus codes = codes.abortStatus) ∧
      Launch.usageError.exitStatus codes = some codes.exitUsage ∧
      (∀ index, (Launch.loadError index).exitStatus codes = some codes.exitLoad) ∧
      (∀ s, (Launch.started s).exitStatus codes = none) ∧
      (codes.Distinct → ∀ index, [some (Fault.halted.runEnd.exitStatus codes), Launch.usageError.exitStatus codes,
        (Launch.loadError index).exitStatus codes, some (Fault.hostStop.runEnd.exitStatus codes)].Nodup)

/-- Whatever the registers, memory, console and fetched word hold, a running machine with no stop asked for has a
next state. That state is Faulted only if the word at PC has opcode 0x8 or 0xD, and Halted only if it is a TRAP
x25. That a GETC or IN with no byte, or a PUTS or PUTSP without a stopping word, which by R72, R147 and R150
never completes, has a next state too is the model's form of a step in progress (assumption 3), not a rule of
the spec; the stop request as a field of State is assumption 5. (60_exceptions.md rule R160; 60_exceptions.md
rule R173 (decisions D19, D23); 10_state.md rule R40; 44_trap.md rules R147, R150 (decisions D13, D21);
assumptions 3 and 5) -/
def Obligations.ARunningMachineAlwaysSteps : Prop :=
  ∀ s : State, s.run = .running → s.hostStop = false → ∃ t, step s = .next t ∧
    (∀ reason, t.run = .faulted reason → s.inFlight = none ∧
      (opcodeOf (fetch s).1 = 0x8 ∨ opcodeOf (fetch s).1 = 0xD)) ∧
    (t.run = .halted → s.inFlight = none ∧ opcodeOf (fetch s).1 = 0xF ∧ trapvect8Of (fetch s).1 = 0x25)

/-- A running machine about to execute a word of opcode 0x8 or 0xD steps to the Faulted state in which only PC
(incremented) and RUN differ, the recorded address is the illegal word's own, and no step follows, so no
instruction after it executes. (60_exceptions.md rule R163 (derived); 60_exceptions.md rule R161;
95_test_vectors.md L1.7) -/
def Obligations.IllegalWordIsPrecise : Prop :=
  ∀ (s : State) (w : Word), s.About w → (opcodeOf w = 0x8 ∨ opcodeOf w = 0xD) →
    ∃ t, step s = .next t ∧
      t = { s with pc := s.pc + 1, run := .faulted (.illegalInstruction (opcodeOf w) s.pc) } ∧
      ∀ k u, core.run (k + 1) t ≠ .next u

/-- If an instruction stores a word at the address of the next instruction, the next step executes that word:
nothing is prefetched. (20_memory.md rule R75 (decision D11); 70_reset_and_hazards.md rules R200, R201
(derived)) -/
def Obligations.StoreReachesTheNextFetch : Prop :=
  ∀ (i : Instr) (s t : State) (v : Word), s.mem.wf = true → s.Fetching → s.pc ≠ s.cfg.kbsrAddr →
    exec i s = .next t → storeAddress i s = some s.pc →
    ((∃ r o, i = .st r o ∧ v = s.reg r) ∨ (∃ r o, i = .sti r o ∧ v = s.reg r) ∨ (∃ r b o, i = .str r b o ∧ v = s.reg r)) →
    step t = exec (decodeWord v) { t with pc := t.pc + 1 }

/-- An instruction outside the list ADD, AND, NOT, LD, LDI, LDR, LEA, GETC and IN leaves COND unchanged; one in the
list sets it by SetCC from the word it writes to its destination (GETC and IN once their byte is there). And for
every instruction but BR, changing COND beforehand changes nothing in the result but COND. (R39) -/
def Obligations.CondIsWrittenAndReadOnlyAsListed : Prop :=
  (∀ (i : Instr) (s t : State), exec i s = .next t →
      (flagDest i = none → t.cond = s.cond) ∧
      (∀ d, flagDest i = some d → (i = .trapGetc ∨ i = .trapIn → s.input ≠ []) → t.cond = condOf (t.reg d))) ∧
    ∀ (i : Instr) (s t t' : State) (c : Cond), (∀ m o, i ≠ .br m o) → exec i s = .next t →
      exec i { s with cond := c } = .next t' → { t' with cond := t.cond } = t

/-- Every instruction but BR, JMP, JSR and JSRR leaves the incremented PC as it is: TRAP never transfers control.
And a step in progress never changes PC. (10_state.md rule R36 (derived); 42_control.md rule R128) -/
def Obligations.PcIsWrittenOnlyByControlTransfer : Prop :=
  (∀ (i : Instr) (s t : State), exec i s = .next t → writesPc i = false → t.pc = s.pc) ∧
    ∀ (r : Routine) (s t : State), s.inFlight = some r → step s = .next t → t.pc = s.pc

/-- Every register that is neither the destination of a flag-defining instruction nor, for JSR, JSRR and TRAP, the
link register R7 is unchanged; and JSR, JSRR and TRAP put the incremented PC in R7. (10_state.md rules R31, R32,
R33, R34; 41_operate.md rule R118; 44_trap.md rule R140) -/
def Obligations.RegistersKeptButDestinations : Prop :=
  ∀ (i : Instr) (s t : State), exec i s = .next t →
    RegsKept (writtenRegs i) s t ∧ (writesLink i = true → t.reg 7 = s.pc)

/-- An instruction changes no word of memory but the one at the address it stores to, computed as its meaning
computes it, and, if it makes a MemRead, the two keyboard words. One that neither reads nor stores changes no
word at all. (20_memory.md rules R56, R58, R61; 41_operate.md rule R118) -/
def Obligations.MemoryKeptButStoresAndPolls : Prop :=
  ∀ (i : Instr) (s t : State), exec i s = .next t →
    (∀ a, storeAddress i s ≠ some a → a ≠ s.cfg.kbsrAddr → a ≠ s.cfg.kbdrAddr → t.raw a = s.raw a) ∧
    (readsMemory i = false → ∀ a, storeAddress i s ≠ some a → t.raw a = s.raw a)

/-- Every instruction but TRAP HALT and the illegal opcodes leaves RUN as it is; HALT makes it Halted and an illegal
opcode Faulted. No instruction changes the parameters of the machine or the stop request. (10_state.md rule R40;
00_scope.md rule R19; 00_scope.md rule R10 (decisions D7, D8, D14, D15, D17)) -/
def Obligations.RunIsWrittenOnlyByHaltAndIllegal : Prop :=
  ∀ (i : Instr) (s t : State), exec i s = .next t → t.cfg = s.cfg ∧ t.hostStop = s.hostStop ∧
    (i = .trapHalt → t.run = .halted) ∧ ((i = .rtiSlot ∨ i = .reservedSlot) → ∃ reason, t.run = .faulted reason) ∧
    (i ≠ .trapHalt → i ≠ .rtiSlot → i ≠ .reservedSlot → t.run = s.run)

/-- An instruction other than TRAP OUT, PUTS, PUTSP, IN and HALT leaves the console output stream as it is, so no
store to any address produces output; and every instruction leaves what was sent before as the beginning of the
output stream. (60_exceptions.md rule R175 (decisions D8, D18); 20_memory.md rule R73 (decision D31);
60_exceptions.md rule R181 (decision D31)) -/
def Obligations.OutputOnlyFromTraps : Prop :=
  ∀ (i : Instr) (s t : State), exec i s = .next t →
    (sendsOutput i = false → t.output = s.output) ∧ s.output <+: t.output

/-- Two machines that differ only in the console requests already made take the same steps: after any number of
steps they again differ only in those, and they end alike. So nothing the core has sent can be read back by a
program. (20_memory.md rules R70, R73 (decision D31); 10_state.md rule R44; 00_scope.md rule R22) -/
def Obligations.OutputIsWriteOnly : Prop :=
  ∀ (k : Nat) (s : State) (earlier : List ConsoleEvent),
    (∀ t, core.run k s = .next t →
      core.run k { s with events := earlier ++ s.events } = .next { t with events := earlier ++ t.events }) ∧
    (∀ r, core.run k s = .fault r → core.run k { s with events := earlier ++ s.events } = .fault r)

/-- At reset R0 to R7 and every word of memory are 0x0000, PC is PC_START = 0x3000, COND is Z, RUN is Running,
nothing has been sent to the console, and the seven parameters have the defaults of R9. (The values are
decisions of the spec: D6, D7, D8, D14, D15, D17, D26, D31, assumptions 15, 16 and 20; that the parameters stand
in a record of State is assumption 9; that no input has arrived yet is the model's choice, assumption 4, and is
not stated here.) (10_state.md rule R45 (decisions D6, D7, D26, D31); 70_reset_and_hazards.md rules R190, R191,
R192, R193; 00_scope.md rules R9, R10 (decisions D7, D8, D14, D15, D17); assumptions 9, 15, 16 and 20) -/
def Obligations.ResetLeavesTheLaunchState : Prop :=
  (∀ r, State.reset.reg r = 0x0000) ∧ State.reset.pc = 0x3000 ∧ State.reset.cond = .z ∧
    State.reset.run = .running ∧ (∀ a, State.reset.raw a = 0x0000) ∧ State.reset.output = [] ∧
    State.reset.cfg = Config.default

/-- Launching with one image, whose file is the origin word and then the program words, each as (high byte, low
byte), gives the launch state with those words at origin, origin + 1, ...; words that would fall past 0xFFFF are
not loaded and do not wrap; every other word of memory is zero; PC is PC_START whatever the origin, the
registers are zero, COND is Z and RUN is Running. With two images, loaded in command-line order, an address the
second covers holds its word and any other the first covers holds the first's. (70_reset_and_hazards.md rule
R194; 70_reset_and_hazards.md rules R195, R196 (decision D24); 70_reset_and_hazards.md rule R197 (derived);
20_memory.md rule R78) -/
def Obligations.ImageIsLoadedFromItsOrigin : Prop :=
  (∀ (cfg : Config) (origin : Word) (ws : List Word), ∃ s, launch cfg [some (imageBytes origin ws)] = .started s ∧
    (∀ a, s.raw a = (loadedAt origin ws a).getD 0) ∧ s.pc = cfg.pcStart ∧ (∀ r, s.reg r = 0) ∧ s.cond = .z ∧
    s.run = .running ∧ s.output = [] ∧ s.cfg = cfg) ∧
    ∀ (cfg : Config) (o1 o2 : Word) (ws1 ws2 : List Word), ∃ s,
      launch cfg [some (imageBytes o1 ws1), some (imageBytes o2 ws2)] = .started s ∧
      ∀ a, s.raw a = ((loadedAt o2 ws2 a).or (loadedAt o1 ws1 a)).getD 0

/-- With no image the launch is a usage error. With an image that cannot be read, or that holds no whole word, after
any list of loadable images (each a file of at least one whole word) and before any others, it is a load error
naming that image by its index, and no state is started; with one or more loadable images and no other the
machine starts. A trailing odd byte is ignored: one byte after any file of even length, at any place in the
list, changes nothing in the launch. (That a one-byte image fails as an empty one does is assumption 7.)
(70_reset_and_hazards.md rule R196 (decision D24); 70_reset_and_hazards.md rule R198 (decision D25); assumption
7) -/
def Obligations.LaunchWithoutAnImageStartsNothing : Prop :=
  (∀ cfg : Config, launch cfg [] = .usageError) ∧
    (∀ (cfg : Config) (good rest : List Image) (bad : Image),
      (∀ image ∈ good, ∃ bytes, image = some bytes ∧ 2 ≤ bytes.length) →
      (bad = none ∨ bad = some [] ∨ ∃ b, bad = some [b]) →
      launch cfg (good ++ bad :: rest) = .loadError good.length) ∧
    (∀ (cfg : Config) (good : List Image), good ≠ [] →
      (∀ image ∈ good, ∃ bytes, image = some bytes ∧ 2 ≤ bytes.length) → ∃ s, launch cfg good = .started s) ∧
    ∀ (cfg : Config) (before rest : List Image) (bytes : List Byte) (b : Byte), bytes.length % 2 = 0 →
      launch cfg (before ++ some (bytes ++ [b]) :: rest) = launch cfg (before ++ some bytes :: rest)

/-- The invariant holds in the state right after reset. (10_state.md rule R45; assumptions 1 and 3) -/
def Obligations.ResetIsSound : Prop :=
  Inv State.reset

/-- From every state that meets the invariant, reachable or not, a step that answers a next state gives one that
meets it: memory stays in canonical form (which makes every stored word read back); a blocked GETC or IN has its
link in R7; a string that goes round memory starts at R0 and has no stopping word anywhere; and RUN is Faulted
only by opcode 0x8 or 0xD, with PC one past the recorded address. (44_trap.md rules R147, R150; 60_exceptions.md
rules R161, R162; 20_memory.md rule R53; assumptions 1 and 3) -/
def Obligations.EveryStepKeepsTheInvariant : Prop :=
  ∀ s t : State, Inv s → step s = .next t → Inv t

/-- From the launch state of any images and parameters, through any steps and any arrival of input, answers of
PollReady and stop requests between them, every state meets the invariant. (70_reset_and_hazards.md rule R197
(derived); 00_scope.md rule R23; 20_memory.md rule R71 (decision D22); assumptions 1 and 3) -/
def Obligations.ReachableStatesAreSound : Prop :=
  ∀ s : State, Reachable s → Inv s
end

