-- ==== Sys2Proof/Laws/Decode.lean ====
section
/-! SUPPORT. The fields of a packed word, the decoder by opcode, and the bits of a word that its fields make up. -/

namespace Sys2Proof

/-! ### Fields of a packed word (R82) -/

section packed
variable (op : BitVec 4) (a b : BitVec 3) (low6 : BitVec 6) (low9 : BitVec 9) (long : BitVec 1) (low11 : BitVec 11)
  (x : BitVec 4) (low8 : BitVec 8)

/-- A field of an appended word that lies in its upper part. -/
theorem extract_append_high {m n : Nat} (hi : BitVec m) (lo : BitVec n) (start len : Nat) (h : n ≤ start) :
    BitVec.extractLsb' start len (hi ++ lo) = BitVec.extractLsb' (start - n) len hi := by
  ext i hlt
  simp [BitVec.getElem_extractLsb', BitVec.getLsbD_append, show ¬ start + i < n by omega,
    show start + i - n = start - n + i by omega]

/-- A field of an appended word that lies in its lower part. -/
theorem extract_append_low {m n : Nat} (hi : BitVec m) (lo : BitVec n) (start len : Nat) (h : start + len ≤ n) :
    BitVec.extractLsb' start len (hi ++ lo) = BitVec.extractLsb' start len lo := by
  ext i hlt
  simp [BitVec.getElem_extractLsb', BitVec.getLsbD_append, show start + i < n by omega]

@[simp] theorem opcodeOf_packRegReg : opcodeOf (packRegReg op a b low6) = op := by
  show BitVec.extractLsb' 12 4 (n := 4 + 3 + 3 + 6) (op ++ a ++ b ++ low6) = op
  rw [extract_append_high _ _ _ _ (show 6 ≤ 12 by decide),
    extract_append_high _ _ _ _ (show 3 ≤ 12 - 6 by decide),
    extract_append_high _ _ _ _ (show 3 ≤ 12 - 6 - 3 by decide)]
  simp

@[simp] theorem fieldA_packRegReg : fieldA (packRegReg op a b low6) = a := by
  show BitVec.extractLsb' 9 3 (n := 4 + 3 + 3 + 6) (op ++ a ++ b ++ low6) = a
  rw [extract_append_high _ _ _ _ (show 6 ≤ 9 by decide),
    extract_append_high _ _ _ _ (show 3 ≤ 9 - 6 by decide),
    extract_append_low _ _ _ _ (show 9 - 6 - 3 + 3 ≤ 3 by decide)]
  simp

@[simp] theorem fieldB_packRegReg : fieldB (packRegReg op a b low6) = b := by
  show BitVec.extractLsb' 6 3 (n := 4 + 3 + 3 + 6) (op ++ a ++ b ++ low6) = b
  rw [extract_append_high _ _ _ _ (show 6 ≤ 6 by decide),
    extract_append_low _ _ _ _ (show 6 - 6 + 3 ≤ 3 by decide)]
  simp

@[simp] theorem offset6Of_packRegReg : offset6Of (packRegReg op a b low6) = low6 := by
  show BitVec.extractLsb' 0 6 (n := 4 + 3 + 3 + 6) (op ++ a ++ b ++ low6) = low6
  rw [extract_append_low _ _ _ _ (show 0 + 6 ≤ 6 by decide)]
  simp

@[simp] theorem imm5Of_packRegReg : imm5Of (packRegReg op a b low6) = low6.extractLsb' 0 5 := by
  show BitVec.extractLsb' 0 5 (n := 4 + 3 + 3 + 6) (op ++ a ++ b ++ low6) = _
  rw [extract_append_low _ _ _ _ (show 0 + 5 ≤ 6 by decide)]

@[simp] theorem fieldC_packRegReg : fieldC (packRegReg op a b low6) = low6.extractLsb' 0 3 := by
  show BitVec.extractLsb' 0 3 (n := 4 + 3 + 3 + 6) (op ++ a ++ b ++ low6) = _
  rw [extract_append_low _ _ _ _ (show 0 + 3 ≤ 6 by decide)]

@[simp] theorem modeBit_packRegReg : modeBit (packRegReg op a b low6) = low6.getLsbD 5 := by
  show BitVec.getLsbD (w := 4 + 3 + 3 + 6) (op ++ a ++ b ++ low6) 5 = _
  simp only [BitVec.getLsbD_append]
  rfl

@[simp] theorem longBit_packRegReg : longBit (packRegReg op a b low6) = a.getLsbD 2 := by
  show BitVec.getLsbD (w := 4 + 3 + 3 + 6) (op ++ a ++ b ++ low6) 11 = _
  simp only [BitVec.getLsbD_append]
  rfl

@[simp] theorem opcodeOf_packRegOffset : opcodeOf (packRegOffset op a low9) = op := by
  show BitVec.extractLsb' 12 4 (n := 4 + 3 + 9) (op ++ a ++ low9) = op
  rw [extract_append_high _ _ _ _ (show 9 ≤ 12 by decide),
    extract_append_high _ _ _ _ (show 3 ≤ 12 - 9 by decide)]
  simp

@[simp] theorem fieldA_packRegOffset : fieldA (packRegOffset op a low9) = a := by
  show BitVec.extractLsb' 9 3 (n := 4 + 3 + 9) (op ++ a ++ low9) = a
  rw [extract_append_high _ _ _ _ (show 9 ≤ 9 by decide),
    extract_append_low _ _ _ _ (show 9 - 9 + 3 ≤ 3 by decide)]
  simp

@[simp] theorem offset9Of_packRegOffset : offset9Of (packRegOffset op a low9) = low9 := by
  show BitVec.extractLsb' 0 9 (n := 4 + 3 + 9) (op ++ a ++ low9) = low9
  rw [extract_append_low _ _ _ _ (show 0 + 9 ≤ 9 by decide)]
  simp

@[simp] theorem opcodeOf_packLong : opcodeOf (packLong op long low11) = op := by
  show BitVec.extractLsb' 12 4 (n := 4 + 1 + 11) (op ++ long ++ low11) = op
  rw [extract_append_high _ _ _ _ (show 11 ≤ 12 by decide),
    extract_append_high _ _ _ _ (show 1 ≤ 12 - 11 by decide)]
  simp

@[simp] theorem longBit_packLong : longBit (packLong op long low11) = long.getLsbD 0 := by
  show BitVec.getLsbD (w := 4 + 1 + 11) (op ++ long ++ low11) 11 = _
  simp only [BitVec.getLsbD_append]
  rfl

@[simp] theorem offset11Of_packLong : offset11Of (packLong op long low11) = low11 := by
  show BitVec.extractLsb' 0 11 (n := 4 + 1 + 11) (op ++ long ++ low11) = low11
  rw [extract_append_low _ _ _ _ (show 0 + 11 ≤ 11 by decide)]
  simp

@[simp] theorem opcodeOf_packTrap : opcodeOf (packTrap op x low8) = op := by
  show BitVec.extractLsb' 12 4 (n := 4 + 4 + 8) (op ++ x ++ low8) = op
  rw [extract_append_high _ _ _ _ (show 8 ≤ 12 by decide),
    extract_append_high _ _ _ _ (show 4 ≤ 12 - 8 by decide)]
  simp

@[simp] theorem trapvect8Of_packTrap : trapvect8Of (packTrap op x low8) = low8 := by
  show BitVec.extractLsb' 0 8 (n := 4 + 4 + 8) (op ++ x ++ low8) = low8
  rw [extract_append_low _ _ _ _ (show 0 + 8 ≤ 8 by decide)]
  simp

end packed

/-! ### The fields of the six low bits of ADD and AND (R84) -/

/-- Bit 5 is 0 in the register form; the two ignored bits below it are encoded 0. -/
@[simp] theorem mode_of_register_form (c : Reg) : (0#3 ++ c : BitVec 6)[5] = false := by revert c; decide

@[simp] theorem sr2_of_register_form (c : Reg) : (0#3 ++ c : BitVec 6).extractLsb' 0 3 = c := by revert c; decide

/-- Bit 5 is 1 in the immediate form. -/
@[simp] theorem mode_of_immediate_form (i : BitVec 5) : (1#1 ++ i : BitVec 6)[5] = true := by revert i; decide

@[simp] theorem imm5_of_immediate_form (i : BitVec 5) : (1#1 ++ i : BitVec 6).extractLsb' 0 5 = i := by
  revert i; decide

/-! ### The decoder by opcode (R95, R102) -/

section byOpcode
variable {w : Word}

theorem decodeWord_of_0 (h : opcodeOf w = 0x0) : decodeWord w = .br (fieldA w) (offset9Of w) := by
  simp [decodeWord, h]

theorem decodeWord_of_1 (h : opcodeOf w = 0x1) : decodeWord w =
    if modeBit w then .addImm (fieldA w) (fieldB w) (imm5Of w) else .addReg (fieldA w) (fieldB w) (fieldC w) := by
  simp [decodeWord, h]

theorem decodeWord_of_2 (h : opcodeOf w = 0x2) : decodeWord w = .ld (fieldA w) (offset9Of w) := by
  simp [decodeWord, h]

theorem decodeWord_of_3 (h : opcodeOf w = 0x3) : decodeWord w = .st (fieldA w) (offset9Of w) := by
  simp [decodeWord, h]

theorem decodeWord_of_4 (h : opcodeOf w = 0x4) : decodeWord w =
    if longBit w then .jsr (offset11Of w) else .jsrr (fieldB w) := by
  simp [decodeWord, h]

theorem decodeWord_of_5 (h : opcodeOf w = 0x5) : decodeWord w =
    if modeBit w then .andImm (fieldA w) (fieldB w) (imm5Of w) else .andReg (fieldA w) (fieldB w) (fieldC w) := by
  simp [decodeWord, h]

theorem decodeWord_of_6 (h : opcodeOf w = 0x6) : decodeWord w = .ldr (fieldA w) (fieldB w) (offset6Of w) := by
  simp [decodeWord, h]

theorem decodeWord_of_7 (h : opcodeOf w = 0x7) : decodeWord w = .str (fieldA w) (fieldB w) (offset6Of w) := by
  simp [decodeWord, h]

theorem decodeWord_of_8 (h : opcodeOf w = 0x8) : decodeWord w = .rtiSlot := by simp [decodeWord, h]

theorem decodeWord_of_9 (h : opcodeOf w = 0x9) : decodeWord w = .notReg (fieldA w) (fieldB w) := by
  simp [decodeWord, h]

theorem decodeWord_of_A (h : opcodeOf w = 0xA) : decodeWord w = .ldi (fieldA w) (offset9Of w) := by
  simp [decodeWord, h]

theorem decodeWord_of_B (h : opcodeOf w = 0xB) : decodeWord w = .sti (fieldA w) (offset9Of w) := by
  simp [decodeWord, h]

theorem decodeWord_of_C (h : opcodeOf w = 0xC) : decodeWord w = .jmp (fieldB w) := by simp [decodeWord, h]

theorem decodeWord_of_D (h : opcodeOf w = 0xD) : decodeWord w = .reservedSlot := by simp [decodeWord, h]

theorem decodeWord_of_E (h : opcodeOf w = 0xE) : decodeWord w = .lea (fieldA w) (offset9Of w) := by
  simp [decodeWord, h]

theorem decodeWord_of_F (h : opcodeOf w = 0xF) : decodeWord w = decodeTrap (trapvect8Of w) := by
  simp [decodeWord, h]

end byOpcode

/-- An opcode is one of the sixteen values of R81. -/
theorem opcode_cases (op : BitVec 4) :
    op = 0x0 ∨ op = 0x1 ∨ op = 0x2 ∨ op = 0x3 ∨ op = 0x4 ∨ op = 0x5 ∨ op = 0x6 ∨ op = 0x7 ∨
    op = 0x8 ∨ op = 0x9 ∨ op = 0xA ∨ op = 0xB ∨ op = 0xC ∨ op = 0xD ∨ op = 0xE ∨ op = 0xF := by
  revert op; decide

/-- What a trap vector selects (R141). -/
theorem decodeTrap_cases (v : BitVec 8) :
    (v = 0x20 ∧ decodeTrap v = .trapGetc) ∨ (v = 0x21 ∧ decodeTrap v = .trapOut) ∨
    (v = 0x22 ∧ decodeTrap v = .trapPuts) ∨ (v = 0x23 ∧ decodeTrap v = .trapIn) ∨
    (v = 0x24 ∧ decodeTrap v = .trapPutsp) ∨ (v = 0x25 ∧ decodeTrap v = .trapHalt) ∨
    (unknownVector v = true ∧ decodeTrap v = .trapUnknown v) := by
  revert v; decide

theorem decodeTrap_of_unknown {v : BitVec 8} (h : unknownVector v = true) : decodeTrap v = .trapUnknown v := by
  revert v; decide

end Sys2Proof
end

