-- ==== Sys2Proof/Laws/State.lean ====
section
/-! SUPPORT. One lemma per field per update of State, each true by rfl, so that no later proof unfolds an update; and
what a register or a word of memory reads as after an update. -/

namespace Sys2Proof.Machine

variable (s : State)

/-! ### setReg -/

@[simp] theorem State.setReg_regs (r : Reg) (v : Word) : (s.setReg r v).regs = s.regs.set r.toNat v := rfl
@[simp] theorem State.setReg_pc (r : Reg) (v : Word) : (s.setReg r v).pc = s.pc := rfl
@[simp] theorem State.setReg_cond (r : Reg) (v : Word) : (s.setReg r v).cond = s.cond := rfl
@[simp] theorem State.setReg_run (r : Reg) (v : Word) : (s.setReg r v).run = s.run := rfl
@[simp] theorem State.setReg_mem (r : Reg) (v : Word) : (s.setReg r v).mem = s.mem := rfl
@[simp] theorem State.setReg_inFlight (r : Reg) (v : Word) : (s.setReg r v).inFlight = s.inFlight := rfl
@[simp] theorem State.setReg_input (r : Reg) (v : Word) : (s.setReg r v).input = s.input := rfl
@[simp] theorem State.setReg_polls (r : Reg) (v : Word) : (s.setReg r v).polls = s.polls := rfl
@[simp] theorem State.setReg_pollCount (r : Reg) (v : Word) : (s.setReg r v).pollCount = s.pollCount := rfl
@[simp] theorem State.setReg_events (r : Reg) (v : Word) : (s.setReg r v).events = s.events := rfl
@[simp] theorem State.setReg_hostStop (r : Reg) (v : Word) : (s.setReg r v).hostStop = s.hostStop := rfl
@[simp] theorem State.setReg_cfg (r : Reg) (v : Word) : (s.setReg r v).cfg = s.cfg := rfl
@[simp] theorem State.setReg_raw (r : Reg) (v : Word) (b : Word) : (s.setReg r v).raw b = s.raw b := rfl

/-! ### setPc -/

@[simp] theorem State.setPc_regs (v : Word) : (s.setPc v).regs = s.regs := rfl
@[simp] theorem State.setPc_pc (v : Word) : (s.setPc v).pc = v := rfl
@[simp] theorem State.setPc_cond (v : Word) : (s.setPc v).cond = s.cond := rfl
@[simp] theorem State.setPc_run (v : Word) : (s.setPc v).run = s.run := rfl
@[simp] theorem State.setPc_mem (v : Word) : (s.setPc v).mem = s.mem := rfl
@[simp] theorem State.setPc_inFlight (v : Word) : (s.setPc v).inFlight = s.inFlight := rfl
@[simp] theorem State.setPc_input (v : Word) : (s.setPc v).input = s.input := rfl
@[simp] theorem State.setPc_polls (v : Word) : (s.setPc v).polls = s.polls := rfl
@[simp] theorem State.setPc_pollCount (v : Word) : (s.setPc v).pollCount = s.pollCount := rfl
@[simp] theorem State.setPc_events (v : Word) : (s.setPc v).events = s.events := rfl
@[simp] theorem State.setPc_hostStop (v : Word) : (s.setPc v).hostStop = s.hostStop := rfl
@[simp] theorem State.setPc_cfg (v : Word) : (s.setPc v).cfg = s.cfg := rfl
@[simp] theorem State.setPc_reg (v : Word) (q : Reg) : (s.setPc v).reg q = s.reg q := rfl
@[simp] theorem State.setPc_raw (v : Word) (b : Word) : (s.setPc v).raw b = s.raw b := rfl

/-! ### incPc -/

@[simp] theorem State.incPc_regs : (s.incPc).regs = s.regs := rfl
@[simp] theorem State.incPc_pc : (s.incPc).pc = s.pc + 1 := rfl
@[simp] theorem State.incPc_cond : (s.incPc).cond = s.cond := rfl
@[simp] theorem State.incPc_run : (s.incPc).run = s.run := rfl
@[simp] theorem State.incPc_mem : (s.incPc).mem = s.mem := rfl
@[simp] theorem State.incPc_inFlight : (s.incPc).inFlight = s.inFlight := rfl
@[simp] theorem State.incPc_input : (s.incPc).input = s.input := rfl
@[simp] theorem State.incPc_polls : (s.incPc).polls = s.polls := rfl
@[simp] theorem State.incPc_pollCount : (s.incPc).pollCount = s.pollCount := rfl
@[simp] theorem State.incPc_events : (s.incPc).events = s.events := rfl
@[simp] theorem State.incPc_hostStop : (s.incPc).hostStop = s.hostStop := rfl
@[simp] theorem State.incPc_cfg : (s.incPc).cfg = s.cfg := rfl
@[simp] theorem State.incPc_reg (q : Reg) : (s.incPc).reg q = s.reg q := rfl
@[simp] theorem State.incPc_raw (b : Word) : (s.incPc).raw b = s.raw b := rfl

/-! ### link -/

@[simp] theorem State.link_pc : (s.link).pc = s.pc := rfl
@[simp] theorem State.link_cond : (s.link).cond = s.cond := rfl
@[simp] theorem State.link_run : (s.link).run = s.run := rfl
@[simp] theorem State.link_mem : (s.link).mem = s.mem := rfl
@[simp] theorem State.link_inFlight : (s.link).inFlight = s.inFlight := rfl
@[simp] theorem State.link_input : (s.link).input = s.input := rfl
@[simp] theorem State.link_polls : (s.link).polls = s.polls := rfl
@[simp] theorem State.link_pollCount : (s.link).pollCount = s.pollCount := rfl
@[simp] theorem State.link_events : (s.link).events = s.events := rfl
@[simp] theorem State.link_hostStop : (s.link).hostStop = s.hostStop := rfl
@[simp] theorem State.link_cfg : (s.link).cfg = s.cfg := rfl
@[simp] theorem State.link_raw (b : Word) : (s.link).raw b = s.raw b := rfl

/-! ### setCC -/

@[simp] theorem State.setCC_regs (v : Word) : (s.setCC v).regs = s.regs := rfl
@[simp] theorem State.setCC_pc (v : Word) : (s.setCC v).pc = s.pc := rfl
@[simp] theorem State.setCC_cond (v : Word) : (s.setCC v).cond = condOf v := rfl
@[simp] theorem State.setCC_run (v : Word) : (s.setCC v).run = s.run := rfl
@[simp] theorem State.setCC_mem (v : Word) : (s.setCC v).mem = s.mem := rfl
@[simp] theorem State.setCC_inFlight (v : Word) : (s.setCC v).inFlight = s.inFlight := rfl
@[simp] theorem State.setCC_input (v : Word) : (s.setCC v).input = s.input := rfl
@[simp] theorem State.setCC_polls (v : Word) : (s.setCC v).polls = s.polls := rfl
@[simp] theorem State.setCC_pollCount (v : Word) : (s.setCC v).pollCount = s.pollCount := rfl
@[simp] theorem State.setCC_events (v : Word) : (s.setCC v).events = s.events := rfl
@[simp] theorem State.setCC_hostStop (v : Word) : (s.setCC v).hostStop = s.hostStop := rfl
@[simp] theorem State.setCC_cfg (v : Word) : (s.setCC v).cfg = s.cfg := rfl
@[simp] theorem State.setCC_reg (v : Word) (q : Reg) : (s.setCC v).reg q = s.reg q := rfl
@[simp] theorem State.setCC_raw (v : Word) (b : Word) : (s.setCC v).raw b = s.raw b := rfl

/-! ### writeResult -/

@[simp] theorem State.writeResult_pc (r : Reg) (v : Word) : (s.writeResult r v).pc = s.pc := rfl
@[simp] theorem State.writeResult_cond (r : Reg) (v : Word) : (s.writeResult r v).cond = condOf v := rfl
@[simp] theorem State.writeResult_run (r : Reg) (v : Word) : (s.writeResult r v).run = s.run := rfl
@[simp] theorem State.writeResult_mem (r : Reg) (v : Word) : (s.writeResult r v).mem = s.mem := rfl
@[simp] theorem State.writeResult_inFlight (r : Reg) (v : Word) : (s.writeResult r v).inFlight = s.inFlight := rfl
@[simp] theorem State.writeResult_input (r : Reg) (v : Word) : (s.writeResult r v).input = s.input := rfl
@[simp] theorem State.writeResult_polls (r : Reg) (v : Word) : (s.writeResult r v).polls = s.polls := rfl
@[simp] theorem State.writeResult_pollCount (r : Reg) (v : Word) : (s.writeResult r v).pollCount = s.pollCount := rfl
@[simp] theorem State.writeResult_events (r : Reg) (v : Word) : (s.writeResult r v).events = s.events := rfl
@[simp] theorem State.writeResult_hostStop (r : Reg) (v : Word) : (s.writeResult r v).hostStop = s.hostStop := rfl
@[simp] theorem State.writeResult_cfg (r : Reg) (v : Word) : (s.writeResult r v).cfg = s.cfg := rfl
@[simp] theorem State.writeResult_raw (r : Reg) (v : Word) (b : Word) : (s.writeResult r v).raw b = s.raw b := rfl

/-! ### memWrite -/

@[simp] theorem State.memWrite_regs (a v : Word) : (s.memWrite a v).regs = s.regs := rfl
@[simp] theorem State.memWrite_pc (a v : Word) : (s.memWrite a v).pc = s.pc := rfl
@[simp] theorem State.memWrite_cond (a v : Word) : (s.memWrite a v).cond = s.cond := rfl
@[simp] theorem State.memWrite_run (a v : Word) : (s.memWrite a v).run = s.run := rfl
@[simp] theorem State.memWrite_mem (a v : Word) : (s.memWrite a v).mem = s.mem.write a v := rfl
@[simp] theorem State.memWrite_inFlight (a v : Word) : (s.memWrite a v).inFlight = s.inFlight := rfl
@[simp] theorem State.memWrite_input (a v : Word) : (s.memWrite a v).input = s.input := rfl
@[simp] theorem State.memWrite_polls (a v : Word) : (s.memWrite a v).polls = s.polls := rfl
@[simp] theorem State.memWrite_pollCount (a v : Word) : (s.memWrite a v).pollCount = s.pollCount := rfl
@[simp] theorem State.memWrite_events (a v : Word) : (s.memWrite a v).events = s.events := rfl
@[simp] theorem State.memWrite_hostStop (a v : Word) : (s.memWrite a v).hostStop = s.hostStop := rfl
@[simp] theorem State.memWrite_cfg (a v : Word) : (s.memWrite a v).cfg = s.cfg := rfl
@[simp] theorem State.memWrite_reg (a v : Word) (q : Reg) : (s.memWrite a v).reg q = s.reg q := rfl

/-! ### sendBytes -/

@[simp] theorem State.sendBytes_regs (bs : List Byte) : (s.sendBytes bs).regs = s.regs := rfl
@[simp] theorem State.sendBytes_pc (bs : List Byte) : (s.sendBytes bs).pc = s.pc := rfl
@[simp] theorem State.sendBytes_cond (bs : List Byte) : (s.sendBytes bs).cond = s.cond := rfl
@[simp] theorem State.sendBytes_run (bs : List Byte) : (s.sendBytes bs).run = s.run := rfl
@[simp] theorem State.sendBytes_mem (bs : List Byte) : (s.sendBytes bs).mem = s.mem := rfl
@[simp] theorem State.sendBytes_inFlight (bs : List Byte) : (s.sendBytes bs).inFlight = s.inFlight := rfl
@[simp] theorem State.sendBytes_input (bs : List Byte) : (s.sendBytes bs).input = s.input := rfl
@[simp] theorem State.sendBytes_polls (bs : List Byte) : (s.sendBytes bs).polls = s.polls := rfl
@[simp] theorem State.sendBytes_pollCount (bs : List Byte) : (s.sendBytes bs).pollCount = s.pollCount := rfl
@[simp] theorem State.sendBytes_events (bs : List Byte) : (s.sendBytes bs).events = s.events ++ bs.map ConsoleEvent.writeChar := rfl
@[simp] theorem State.sendBytes_hostStop (bs : List Byte) : (s.sendBytes bs).hostStop = s.hostStop := rfl
@[simp] theorem State.sendBytes_cfg (bs : List Byte) : (s.sendBytes bs).cfg = s.cfg := rfl
@[simp] theorem State.sendBytes_reg (bs : List Byte) (q : Reg) : (s.sendBytes bs).reg q = s.reg q := rfl
@[simp] theorem State.sendBytes_raw (bs : List Byte) (b : Word) : (s.sendBytes bs).raw b = s.raw b := rfl

/-! ### askChar -/

@[simp] theorem State.askChar_regs : (s.askChar).regs = s.regs := rfl
@[simp] theorem State.askChar_pc : (s.askChar).pc = s.pc := rfl
@[simp] theorem State.askChar_cond : (s.askChar).cond = s.cond := rfl
@[simp] theorem State.askChar_run : (s.askChar).run = s.run := rfl
@[simp] theorem State.askChar_mem : (s.askChar).mem = s.mem := rfl
@[simp] theorem State.askChar_inFlight : (s.askChar).inFlight = s.inFlight := rfl
@[simp] theorem State.askChar_input : (s.askChar).input = s.input := rfl
@[simp] theorem State.askChar_polls : (s.askChar).polls = s.polls := rfl
@[simp] theorem State.askChar_pollCount : (s.askChar).pollCount = s.pollCount := rfl
@[simp] theorem State.askChar_events : (s.askChar).events = s.events ++ [ConsoleEvent.readChar] := rfl
@[simp] theorem State.askChar_hostStop : (s.askChar).hostStop = s.hostStop := rfl
@[simp] theorem State.askChar_cfg : (s.askChar).cfg = s.cfg := rfl
@[simp] theorem State.askChar_reg (q : Reg) : (s.askChar).reg q = s.reg q := rfl
@[simp] theorem State.askChar_raw (b : Word) : (s.askChar).raw b = s.raw b := rfl

/-! ### askPoll -/

@[simp] theorem State.askPoll_regs : (s.askPoll).regs = s.regs := rfl
@[simp] theorem State.askPoll_pc : (s.askPoll).pc = s.pc := rfl
@[simp] theorem State.askPoll_cond : (s.askPoll).cond = s.cond := rfl
@[simp] theorem State.askPoll_run : (s.askPoll).run = s.run := rfl
@[simp] theorem State.askPoll_mem : (s.askPoll).mem = s.mem := rfl
@[simp] theorem State.askPoll_inFlight : (s.askPoll).inFlight = s.inFlight := rfl
@[simp] theorem State.askPoll_input : (s.askPoll).input = s.input := rfl
@[simp] theorem State.askPoll_polls : (s.askPoll).polls = s.polls.tail := rfl
@[simp] theorem State.askPoll_pollCount : (s.askPoll).pollCount = s.pollCount + 1 := rfl
@[simp] theorem State.askPoll_events : (s.askPoll).events = s.events ++ [ConsoleEvent.pollReady s.pollAnswer] := rfl
@[simp] theorem State.askPoll_hostStop : (s.askPoll).hostStop = s.hostStop := rfl
@[simp] theorem State.askPoll_cfg : (s.askPoll).cfg = s.cfg := rfl
@[simp] theorem State.askPoll_reg (q : Reg) : (s.askPoll).reg q = s.reg q := rfl
@[simp] theorem State.askPoll_raw (b : Word) : (s.askPoll).raw b = s.raw b := rfl

/-! ### setInput -/

@[simp] theorem State.setInput_regs (bs : List Byte) : (s.setInput bs).regs = s.regs := rfl
@[simp] theorem State.setInput_pc (bs : List Byte) : (s.setInput bs).pc = s.pc := rfl
@[simp] theorem State.setInput_cond (bs : List Byte) : (s.setInput bs).cond = s.cond := rfl
@[simp] theorem State.setInput_run (bs : List Byte) : (s.setInput bs).run = s.run := rfl
@[simp] theorem State.setInput_mem (bs : List Byte) : (s.setInput bs).mem = s.mem := rfl
@[simp] theorem State.setInput_inFlight (bs : List Byte) : (s.setInput bs).inFlight = s.inFlight := rfl
@[simp] theorem State.setInput_input (bs : List Byte) : (s.setInput bs).input = bs := rfl
@[simp] theorem State.setInput_polls (bs : List Byte) : (s.setInput bs).polls = s.polls := rfl
@[simp] theorem State.setInput_pollCount (bs : List Byte) : (s.setInput bs).pollCount = s.pollCount := rfl
@[simp] theorem State.setInput_events (bs : List Byte) : (s.setInput bs).events = s.events := rfl
@[simp] theorem State.setInput_hostStop (bs : List Byte) : (s.setInput bs).hostStop = s.hostStop := rfl
@[simp] theorem State.setInput_cfg (bs : List Byte) : (s.setInput bs).cfg = s.cfg := rfl
@[simp] theorem State.setInput_reg (bs : List Byte) (q : Reg) : (s.setInput bs).reg q = s.reg q := rfl
@[simp] theorem State.setInput_raw (bs : List Byte) (b : Word) : (s.setInput bs).raw b = s.raw b := rfl

/-! ### setInFlight -/

@[simp] theorem State.setInFlight_regs (r : Option Routine) : (s.setInFlight r).regs = s.regs := rfl
@[simp] theorem State.setInFlight_pc (r : Option Routine) : (s.setInFlight r).pc = s.pc := rfl
@[simp] theorem State.setInFlight_cond (r : Option Routine) : (s.setInFlight r).cond = s.cond := rfl
@[simp] theorem State.setInFlight_run (r : Option Routine) : (s.setInFlight r).run = s.run := rfl
@[simp] theorem State.setInFlight_mem (r : Option Routine) : (s.setInFlight r).mem = s.mem := rfl
@[simp] theorem State.setInFlight_inFlight (r : Option Routine) : (s.setInFlight r).inFlight = r := rfl
@[simp] theorem State.setInFlight_input (r : Option Routine) : (s.setInFlight r).input = s.input := rfl
@[simp] theorem State.setInFlight_polls (r : Option Routine) : (s.setInFlight r).polls = s.polls := rfl
@[simp] theorem State.setInFlight_pollCount (r : Option Routine) : (s.setInFlight r).pollCount = s.pollCount := rfl
@[simp] theorem State.setInFlight_events (r : Option Routine) : (s.setInFlight r).events = s.events := rfl
@[simp] theorem State.setInFlight_hostStop (r : Option Routine) : (s.setInFlight r).hostStop = s.hostStop := rfl
@[simp] theorem State.setInFlight_cfg (r : Option Routine) : (s.setInFlight r).cfg = s.cfg := rfl
@[simp] theorem State.setInFlight_reg (r : Option Routine) (q : Reg) : (s.setInFlight r).reg q = s.reg q := rfl
@[simp] theorem State.setInFlight_raw (r : Option Routine) (b : Word) : (s.setInFlight r).raw b = s.raw b := rfl

/-! ### setRun -/

@[simp] theorem State.setRun_regs (v : RunState) : (s.setRun v).regs = s.regs := rfl
@[simp] theorem State.setRun_pc (v : RunState) : (s.setRun v).pc = s.pc := rfl
@[simp] theorem State.setRun_cond (v : RunState) : (s.setRun v).cond = s.cond := rfl
@[simp] theorem State.setRun_run (v : RunState) : (s.setRun v).run = v := rfl
@[simp] theorem State.setRun_mem (v : RunState) : (s.setRun v).mem = s.mem := rfl
@[simp] theorem State.setRun_inFlight (v : RunState) : (s.setRun v).inFlight = s.inFlight := rfl
@[simp] theorem State.setRun_input (v : RunState) : (s.setRun v).input = s.input := rfl
@[simp] theorem State.setRun_polls (v : RunState) : (s.setRun v).polls = s.polls := rfl
@[simp] theorem State.setRun_pollCount (v : RunState) : (s.setRun v).pollCount = s.pollCount := rfl
@[simp] theorem State.setRun_events (v : RunState) : (s.setRun v).events = s.events := rfl
@[simp] theorem State.setRun_hostStop (v : RunState) : (s.setRun v).hostStop = s.hostStop := rfl
@[simp] theorem State.setRun_cfg (v : RunState) : (s.setRun v).cfg = s.cfg := rfl
@[simp] theorem State.setRun_reg (v : RunState) (q : Reg) : (s.setRun v).reg q = s.reg q := rfl
@[simp] theorem State.setRun_raw (v : RunState) (b : Word) : (s.setRun v).raw b = s.raw b := rfl

/-! ### deliver -/

@[simp] theorem State.deliver_regs (bs : List Byte) : (s.deliver bs).regs = s.regs := rfl
@[simp] theorem State.deliver_pc (bs : List Byte) : (s.deliver bs).pc = s.pc := rfl
@[simp] theorem State.deliver_cond (bs : List Byte) : (s.deliver bs).cond = s.cond := rfl
@[simp] theorem State.deliver_run (bs : List Byte) : (s.deliver bs).run = s.run := rfl
@[simp] theorem State.deliver_mem (bs : List Byte) : (s.deliver bs).mem = s.mem := rfl
@[simp] theorem State.deliver_inFlight (bs : List Byte) : (s.deliver bs).inFlight = s.inFlight := rfl
@[simp] theorem State.deliver_input (bs : List Byte) : (s.deliver bs).input = s.input ++ bs := rfl
@[simp] theorem State.deliver_polls (bs : List Byte) : (s.deliver bs).polls = s.polls := rfl
@[simp] theorem State.deliver_pollCount (bs : List Byte) : (s.deliver bs).pollCount = s.pollCount := rfl
@[simp] theorem State.deliver_events (bs : List Byte) : (s.deliver bs).events = s.events := rfl
@[simp] theorem State.deliver_hostStop (bs : List Byte) : (s.deliver bs).hostStop = s.hostStop := rfl
@[simp] theorem State.deliver_cfg (bs : List Byte) : (s.deliver bs).cfg = s.cfg := rfl
@[simp] theorem State.deliver_reg (bs : List Byte) (q : Reg) : (s.deliver bs).reg q = s.reg q := rfl
@[simp] theorem State.deliver_raw (bs : List Byte) (b : Word) : (s.deliver bs).raw b = s.raw b := rfl

/-! ### settlePolls -/

@[simp] theorem State.settlePolls_regs (answers : List Bool) : (s.settlePolls answers).regs = s.regs := rfl
@[simp] theorem State.settlePolls_pc (answers : List Bool) : (s.settlePolls answers).pc = s.pc := rfl
@[simp] theorem State.settlePolls_cond (answers : List Bool) : (s.settlePolls answers).cond = s.cond := rfl
@[simp] theorem State.settlePolls_run (answers : List Bool) : (s.settlePolls answers).run = s.run := rfl
@[simp] theorem State.settlePolls_mem (answers : List Bool) : (s.settlePolls answers).mem = s.mem := rfl
@[simp] theorem State.settlePolls_inFlight (answers : List Bool) : (s.settlePolls answers).inFlight = s.inFlight := rfl
@[simp] theorem State.settlePolls_input (answers : List Bool) : (s.settlePolls answers).input = s.input := rfl
@[simp] theorem State.settlePolls_polls (answers : List Bool) : (s.settlePolls answers).polls = s.polls ++ answers := rfl
@[simp] theorem State.settlePolls_pollCount (answers : List Bool) : (s.settlePolls answers).pollCount = s.pollCount := rfl
@[simp] theorem State.settlePolls_events (answers : List Bool) : (s.settlePolls answers).events = s.events := rfl
@[simp] theorem State.settlePolls_hostStop (answers : List Bool) : (s.settlePolls answers).hostStop = s.hostStop := rfl
@[simp] theorem State.settlePolls_cfg (answers : List Bool) : (s.settlePolls answers).cfg = s.cfg := rfl
@[simp] theorem State.settlePolls_reg (answers : List Bool) (q : Reg) : (s.settlePolls answers).reg q = s.reg q := rfl
@[simp] theorem State.settlePolls_raw (answers : List Bool) (b : Word) : (s.settlePolls answers).raw b = s.raw b := rfl

/-! ### requestStop -/

@[simp] theorem State.requestStop_regs : (s.requestStop).regs = s.regs := rfl
@[simp] theorem State.requestStop_pc : (s.requestStop).pc = s.pc := rfl
@[simp] theorem State.requestStop_cond : (s.requestStop).cond = s.cond := rfl
@[simp] theorem State.requestStop_run : (s.requestStop).run = s.run := rfl
@[simp] theorem State.requestStop_mem : (s.requestStop).mem = s.mem := rfl
@[simp] theorem State.requestStop_inFlight : (s.requestStop).inFlight = s.inFlight := rfl
@[simp] theorem State.requestStop_input : (s.requestStop).input = s.input := rfl
@[simp] theorem State.requestStop_polls : (s.requestStop).polls = s.polls := rfl
@[simp] theorem State.requestStop_pollCount : (s.requestStop).pollCount = s.pollCount := rfl
@[simp] theorem State.requestStop_events : (s.requestStop).events = s.events := rfl
@[simp] theorem State.requestStop_hostStop : (s.requestStop).hostStop = true := rfl
@[simp] theorem State.requestStop_cfg : (s.requestStop).cfg = s.cfg := rfl
@[simp] theorem State.requestStop_reg (q : Reg) : (s.requestStop).reg q = s.reg q := rfl
@[simp] theorem State.requestStop_raw (b : Word) : (s.requestStop).raw b = s.raw b := rfl

/-! ### Registers: a write changes R[r] and nothing else (R31) -/

theorem State.setReg_reg (r q : Reg) (v : Word) : (s.setReg r v).reg q = if q = r then v else s.reg q := by
  by_cases h : q = r
  · subst h; simp [State.reg]
  · simp [State.reg, h, BitVec.toNat_inj, Ne.symm h]

@[simp] theorem State.setReg_reg_same (r : Reg) (v : Word) : (s.setReg r v).reg r = v := by
  simp [State.setReg_reg]

@[simp] theorem State.writeResult_reg (r q : Reg) (v : Word) :
    (s.writeResult r v).reg q = if q = r then v else s.reg q :=
  State.setReg_reg s r q v

@[simp] theorem State.link_reg (q : Reg) : s.link.reg q = if q = linkReg then s.pc else s.reg q :=
  State.setReg_reg s linkReg q s.pc

/-- The trap argument register is not the link register, so the link write leaves it alone. -/
@[simp] theorem argReg_ne_linkReg : ¬ argReg = linkReg := by decide

end Sys2Proof.Machine
end

