-- ==== Sys2Proof/Laws/Memory.lean ====
section
/-! SUPPORT. Memory: reading after a write (R53, R58), the canonical form every operation keeps, and that canonical
memories that read alike are equal. -/

namespace Sys2Proof.Machine

/-! ### Reading after a write -/

theorem Memory.readAt_of_wfFrom_gt {m : Memory} {lo a : Nat} (h : Memory.wfFrom lo m = true) (ha : a < lo) :
    Memory.readAt m a = unlistedWord := by
  induction m generalizing lo with
  | nil => rfl
  | cons c m ih =>
    obtain ⟨k, v⟩ := c
    simp only [Memory.wfFrom, Bool.and_eq_true, decide_eq_true_eq] at h
    have hk : k ≠ a := by omega
    simp only [Memory.readAt, if_neg hk]
    exact ih h.2 (by omega)

theorem Memory.readAt_writeAt_ne (m : Memory) {a b : Nat} (hb : b ≠ a) (v : Word) :
    Memory.readAt (Memory.writeAt m a v) b = Memory.readAt m b := by
  induction m with
  | nil => by_cases hv : v = unlistedWord <;> simp [Memory.writeAt, Memory.readAt, hv, Ne.symm hb]
  | cons c m ih =>
    obtain ⟨k, x⟩ := c
    by_cases hka : k < a
    · simp only [Memory.writeAt, if_pos hka, Memory.readAt, ih]
    · by_cases hk : k = a
      · subst hk
        by_cases hv : v = unlistedWord <;> simp [Memory.writeAt, hv, Memory.readAt, Ne.symm hb]
      · by_cases hv : v = unlistedWord <;> simp [Memory.writeAt, hka, hk, hv, Memory.readAt, Ne.symm hb]

theorem Memory.readAt_writeAt_same {m : Memory} {lo : Nat} (h : Memory.wfFrom lo m = true) (a : Nat) (v : Word) :
    Memory.readAt (Memory.writeAt m a v) a = v := by
  induction m generalizing lo with
  | nil => by_cases hv : v = unlistedWord <;> simp [Memory.writeAt, Memory.readAt, hv]
  | cons c m ih =>
    obtain ⟨k, x⟩ := c
    simp only [Memory.wfFrom, Bool.and_eq_true, decide_eq_true_eq] at h
    have hgt := fun a ha => Memory.readAt_of_wfFrom_gt (a := a) h.2 ha
    by_cases hka : k < a
    · simp only [Memory.writeAt, if_pos hka, Memory.readAt, if_neg (Nat.ne_of_lt hka), ih h.2]
    · by_cases hk : k = a
      · subst hk
        by_cases hv : v = unlistedWord
        · simp [Memory.writeAt, hv, hgt k (by omega)]
        · simp [Memory.writeAt, hv, Memory.readAt]
      · by_cases hv : v = unlistedWord
        · simp [Memory.writeAt, hka, hk, hv, Memory.readAt, hgt a (by omega)]
        · simp [Memory.writeAt, hka, hk, hv, Memory.readAt]

/-- A word stored is what its address reads as, and every other address reads as before. -/
theorem Memory.read_write {m : Memory} (h : m.wf = true) (a b v : Word) :
    (m.write a v).read b = if b = a then v else m.read b := by
  by_cases hb : b = a
  · subst hb
    simpa [Memory.read, Memory.write] using Memory.readAt_writeAt_same h b.toNat v
  · have hne : b.toNat ≠ a.toNat := fun e => hb (BitVec.toNat_inj.mp e)
    simpa [Memory.read, Memory.write, hb] using Memory.readAt_writeAt_ne m hne v

/-- A store leaves every other address alone, whatever form memory is in. -/
theorem Memory.read_write_ne (m : Memory) {a b : Word} (hb : b ≠ a) (v : Word) :
    (m.write a v).read b = m.read b :=
  Memory.readAt_writeAt_ne m (fun h => hb (BitVec.toNat_inj.mp h)) v

theorem State.memWrite_raw {s : State} (h : s.mem.wf = true) (a b v : Word) :
    (s.memWrite a v).raw b = if b = a then v else s.raw b :=
  Memory.read_write h a b v

@[simp] theorem State.memWrite_raw_ne (s : State) {a b : Word} (hb : b ≠ a) (v : Word) :
    (s.memWrite a v).raw b = s.raw b :=
  Memory.read_write_ne s.mem hb v

/-! ### The canonical form -/

theorem Memory.wfFrom_mono {m : Memory} {lo lo' : Nat} (hle : lo' ≤ lo) (h : Memory.wfFrom lo m = true) :
    Memory.wfFrom lo' m = true := by
  cases m with
  | nil => rfl
  | cons c m =>
    obtain ⟨k, v⟩ := c
    simp only [Memory.wfFrom, Bool.and_eq_true, decide_eq_true_eq] at h ⊢
    exact ⟨⟨⟨by omega, h.1.1.2⟩, h.1.2⟩, h.2⟩

theorem Memory.wfFrom_writeAt {m : Memory} {lo a : Nat} (hlo : lo ≤ a) (ha : a < memorySize) (v : Word)
    (h : Memory.wfFrom lo m = true) : Memory.wfFrom lo (Memory.writeAt m a v) = true := by
  induction m generalizing lo with
  | nil =>
    by_cases hv : v = unlistedWord <;> simp [Memory.writeAt, Memory.wfFrom, hv, hlo, ha]
  | cons c m ih =>
    obtain ⟨k, x⟩ := c
    have hwf := h
    simp only [Memory.wfFrom, Bool.and_eq_true, decide_eq_true_eq] at h
    obtain ⟨⟨⟨hk, hk'⟩, hx⟩, hm⟩ := h
    by_cases hka : k < a
    · simp only [Memory.writeAt, if_pos hka, Memory.wfFrom, Bool.and_eq_true, decide_eq_true_eq]
      exact ⟨⟨⟨hk, hk'⟩, hx⟩, ih (by omega) hm⟩
    · by_cases hke : k = a
      · subst hke
        by_cases hv : v = unlistedWord
        · simpa [Memory.writeAt, hv] using Memory.wfFrom_mono (by omega) hm
        · simp [Memory.writeAt, hv, Memory.wfFrom, hk, hk', hm]
      · by_cases hv : v = unlistedWord
        · simpa [Memory.writeAt, hka, hke, hv] using hwf
        · have hlt : a + 1 ≤ k := by omega
          simp [Memory.writeAt, hka, hke, hv, Memory.wfFrom, hlo, ha, hlt, hk', hx, hm]

/-- A store keeps the canonical form. -/
theorem Memory.wf_write {m : Memory} (h : m.wf = true) (a v : Word) : (m.write a v).wf = true :=
  Memory.wfFrom_writeAt (Nat.zero_le _) a.isLt v h

theorem State.memWrite_wf {s : State} (h : s.mem.wf = true) (a v : Word) : (s.memWrite a v).mem.wf = true :=
  Memory.wf_write h a v

/-- Reset memory, which lists nothing, is in canonical form. -/
theorem Memory.wf_nil : Memory.wf [] = true := rfl

theorem Memory.eq_of_readAt_eq {m m' : Memory} {lo : Nat} (h : Memory.wfFrom lo m = true)
    (h' : Memory.wfFrom lo m' = true)
    (heq : ∀ a, a < memorySize → Memory.readAt m a = Memory.readAt m' a) : m = m' := by
  induction m generalizing lo m' with
  | nil =>
    cases m' with
    | nil => rfl
    | cons c m' =>
      obtain ⟨k, v⟩ := c
      simp only [Memory.wfFrom, Bool.and_eq_true, decide_eq_true_eq] at h'
      have := heq k h'.1.1.2
      simp only [Memory.readAt, if_true] at this
      exact absurd this.symm h'.1.2
  | cons c m ih =>
    obtain ⟨k, v⟩ := c
    simp only [Memory.wfFrom, Bool.and_eq_true, decide_eq_true_eq] at h
    cases m' with
    | nil =>
      have := heq k h.1.1.2
      simp only [Memory.readAt, if_true] at this
      exact absurd this h.1.2
    | cons c' m' =>
      obtain ⟨k', v'⟩ := c'
      simp only [Memory.wfFrom, Bool.and_eq_true, decide_eq_true_eq] at h'
      have hgt := fun a ha => Memory.readAt_of_wfFrom_gt (a := a) h.2 ha
      have hgt' := fun a ha => Memory.readAt_of_wfFrom_gt (a := a) h'.2 ha
      have e1 := heq k h.1.1.2
      have e2 := heq k' h'.1.1.2
      simp only [Memory.readAt, if_true] at e1 e2
      obtain hlt | heqk | hlt := Nat.lt_trichotomy k k'
      · rw [if_neg (by omega), hgt' k (by omega)] at e1
        exact absurd e1 h.1.2
      · subst heqk
        simp only [if_true] at e1
        subst e1
        have : m = m' := ih h.2 h'.2 (fun a ha => by
          by_cases hka : a < k + 1
          · rw [hgt a hka, hgt' a hka]
          · have hne : k ≠ a := by omega
            simpa only [Memory.readAt, if_neg hne] using heq a ha)
        rw [this]
      · rw [if_neg (by omega), hgt k' (by omega)] at e2
        exact absurd e2.symm h'.1.2

/-- Canonical memories that read alike at every address are the same data. -/
theorem Memory.ext_of_read {m m' : Memory} (h : m.wf = true) (h' : m'.wf = true)
    (heq : ∀ a, m.read a = m'.read a) : m = m' :=
  Memory.eq_of_readAt_eq h h' (fun a ha => by
    have := heq (BitVec.ofNat 16 a)
    simpa [Memory.read, Nat.mod_eq_of_lt (show a < 65536 from ha)] using this)

end Sys2Proof.Machine
end

