-- ==== Sys2Proof/Laws/Ops.lean ====
section
/-! SUPPORT. One specification per shared operation: the poll and MemRead, the wait for a byte, strings in memory, the
exception, and what each leaves unchanged. Later proofs cite these instead of unfolding the operation. -/

namespace Sys2Proof.Machine

variable (s : State)

/-! ### PollReady and the keyboard poll (R55, R71) -/

/-- "When it answers true, a next byte of the input stream exists" (R71). -/
theorem State.pollAnswer_of_no_input {s : State} (h : s.input = []) : s.pollAnswer = false := by
  simp [State.pollAnswer, h]

theorem State.pollAnswer_of_scripted {s : State} {b : Byte} {rest : List Byte} {d : Bool} {ds : List Bool}
    (hi : s.input = b :: rest) (hp : s.polls = d :: ds) : s.pollAnswer = d := by
  simp [State.pollAnswer, hi, hp]

theorem State.poll_of_ready {s : State} {b : Byte} {rest : List Byte} (ha : s.pollAnswer = true)
    (hi : s.input = b :: rest) : s.poll =
      (((s.askPoll).setInput rest).memWrite s.cfg.kbsrAddr 0x8000).memWrite s.cfg.kbdrAddr (zext16 b) := by
  simp [State.poll, ha, hi]

theorem State.poll_of_not_ready {s : State} (ha : s.pollAnswer = false) :
    s.poll = (s.askPoll).memWrite s.cfg.kbsrAddr 0x0000 := by
  simp [State.poll, ha]

/-- All a poll can do. -/
theorem State.poll_cases :
    (s.pollAnswer = false ∧ s.poll = (s.askPoll).memWrite s.cfg.kbsrAddr 0x0000) ∨
    (∃ b rest, s.pollAnswer = true ∧ s.input = b :: rest ∧ s.poll =
      (((s.askPoll).setInput rest).memWrite s.cfg.kbsrAddr 0x8000).memWrite s.cfg.kbdrAddr (zext16 b)) := by
  cases ha : s.pollAnswer with
  | false => exact .inl ⟨rfl, State.poll_of_not_ready ha⟩
  | true =>
    cases hi : s.input with
    | nil => rw [State.pollAnswer_of_no_input hi] at ha; cases ha
    | cons b rest => exact .inr ⟨b, rest, rfl, rfl, State.poll_of_ready ha hi⟩

@[simp] theorem State.poll_regs : s.poll.regs = s.regs := by
  obtain ⟨-, h⟩ | ⟨b, rest, -, -, h⟩ := s.poll_cases <;> simp [h]

@[simp] theorem State.poll_pc : s.poll.pc = s.pc := by
  obtain ⟨-, h⟩ | ⟨b, rest, -, -, h⟩ := s.poll_cases <;> simp [h]

@[simp] theorem State.poll_cond : s.poll.cond = s.cond := by
  obtain ⟨-, h⟩ | ⟨b, rest, -, -, h⟩ := s.poll_cases <;> simp [h]

@[simp] theorem State.poll_run : s.poll.run = s.run := by
  obtain ⟨-, h⟩ | ⟨b, rest, -, -, h⟩ := s.poll_cases <;> simp [h]

@[simp] theorem State.poll_inFlight : s.poll.inFlight = s.inFlight := by
  obtain ⟨-, h⟩ | ⟨b, rest, -, -, h⟩ := s.poll_cases <;> simp [h]

@[simp] theorem State.poll_hostStop : s.poll.hostStop = s.hostStop := by
  obtain ⟨-, h⟩ | ⟨b, rest, -, -, h⟩ := s.poll_cases <;> simp [h]

@[simp] theorem State.poll_cfg : s.poll.cfg = s.cfg := by
  obtain ⟨-, h⟩ | ⟨b, rest, -, -, h⟩ := s.poll_cases <;> simp [h]

@[simp] theorem State.poll_polls : s.poll.polls = s.polls.tail := by
  obtain ⟨-, h⟩ | ⟨b, rest, -, -, h⟩ := s.poll_cases <;> simp [h]

@[simp] theorem State.poll_pollCount : s.poll.pollCount = s.pollCount + 1 := by
  obtain ⟨-, h⟩ | ⟨b, rest, -, -, h⟩ := s.poll_cases <;> simp [h]

@[simp] theorem State.poll_events : s.poll.events = s.events ++ [.pollReady s.pollAnswer] := by
  obtain ⟨-, h⟩ | ⟨b, rest, -, -, h⟩ := s.poll_cases <;> simp [h]

theorem State.poll_input : s.poll.input = if s.pollAnswer then s.input.tail else s.input := by
  obtain ⟨ha, h⟩ | ⟨b, rest, ha, hi, h⟩ := s.poll_cases
  · simp [ha, h]
  · simp [ha, h, hi]

/-- A poll writes the two keyboard words and no other word. -/
theorem State.poll_raw_other {a : Word} (h1 : a ≠ s.cfg.kbsrAddr) (h2 : a ≠ s.cfg.kbdrAddr) :
    s.poll.raw a = s.raw a := by
  obtain ⟨-, h⟩ | ⟨b, rest, -, -, h⟩ := s.poll_cases <;> simp [h, h1, h2]

theorem State.poll_wf {s : State} (h : s.mem.wf = true) : s.poll.mem.wf = true := by
  obtain ⟨-, e⟩ | ⟨b, rest, -, -, e⟩ := s.poll_cases <;> rw [e]
  · exact State.memWrite_wf (s := s.askPoll) h _ _
  · exact State.memWrite_wf (State.memWrite_wf (s := (s.askPoll).setInput rest) h _ _) _ _

/-! ### MemRead (R55, R56) -/

theorem State.afterRead_of_ne {s : State} {a : Word} (h : a ≠ s.cfg.kbsrAddr) : s.afterRead a = s := by
  simp [State.afterRead, h]

theorem State.afterRead_kbsr : s.afterRead s.cfg.kbsrAddr = s.poll := by simp [State.afterRead]

@[simp] theorem memRead_fst (a : Word) : (memRead a s).1 = (s.afterRead a).raw a := rfl
@[simp] theorem memRead_snd (a : Word) : (memRead a s).2 = s.afterRead a := rfl

@[simp] theorem State.afterRead_regs (a : Word) : (s.afterRead a).regs = s.regs := by
  unfold State.afterRead; split <;> simp

@[simp] theorem State.afterRead_reg (a : Word) (r : Reg) : (s.afterRead a).reg r = s.reg r := by
  simp [State.reg]

@[simp] theorem State.afterRead_pc (a : Word) : (s.afterRead a).pc = s.pc := by
  unfold State.afterRead; split <;> simp

@[simp] theorem State.afterRead_cond (a : Word) : (s.afterRead a).cond = s.cond := by
  unfold State.afterRead; split <;> simp

@[simp] theorem State.afterRead_run (a : Word) : (s.afterRead a).run = s.run := by
  unfold State.afterRead; split <;> simp

@[simp] theorem State.afterRead_inFlight (a : Word) : (s.afterRead a).inFlight = s.inFlight := by
  unfold State.afterRead; split <;> simp

@[simp] theorem State.afterRead_hostStop (a : Word) : (s.afterRead a).hostStop = s.hostStop := by
  unfold State.afterRead; split <;> simp

@[simp] theorem State.afterRead_cfg (a : Word) : (s.afterRead a).cfg = s.cfg := by
  unfold State.afterRead; split <;> simp

theorem State.afterRead_wf {s : State} (h : s.mem.wf = true) (a : Word) : (s.afterRead a).mem.wf = true := by
  unfold State.afterRead; split
  · exact State.poll_wf h
  · exact h

/-- MemRead leaves every word but the two keyboard words alone. -/
theorem State.afterRead_raw_other {b : Word} (a : Word) (h1 : b ≠ s.cfg.kbsrAddr) (h2 : b ≠ s.cfg.kbdrAddr) :
    (s.afterRead a).raw b = s.raw b := by
  unfold State.afterRead; split
  · exact s.poll_raw_other h1 h2
  · rfl

/-! ### ReadChar (R72, R147) -/

theorem awaitByte_of_input (r : Routine) (finish : Byte → State → State) {s : State} {b : Byte} {rest : List Byte}
    (h : s.input = b :: rest) : awaitByte r finish s = finish b ((s.setInput rest).setInFlight none) := by
  simp [awaitByte, h]

theorem awaitByte_of_no_input (r : Routine) (finish : Byte → State → State) {s : State} (h : s.input = []) :
    awaitByte r finish s = s.setInFlight (some r) := by
  simp [awaitByte, h]

/-- All a wait for a byte can do. -/
theorem awaitByte_cases (r : Routine) (finish : Byte → State → State) :
    (s.input = [] ∧ awaitByte r finish s = s.setInFlight (some r)) ∨
    (∃ b rest, s.input = b :: rest ∧ awaitByte r finish s = finish b ((s.setInput rest).setInFlight none)) := by
  cases h : s.input with
  | nil => exact .inl ⟨rfl, awaitByte_of_no_input r finish h⟩
  | cons b rest => exact .inr ⟨b, rest, rfl, awaitByte_of_input r finish h⟩

/-! ### Strings in memory (R145, R148, R150) -/

/-- The address after the first `j` successors of `a` (R52). -/
theorem address_succ (a : Word) (j : Nat) : a + BitVec.ofNat 16 (j + 1) = a + 1#16 + BitVec.ofNat 16 j := by
  rw [BitVec.ofNat_add, BitVec.add_assoc, BitVec.add_comm (BitVec.ofNat 16 j)]

/-- The bytes sent for the `k` words from `a` on. -/
def stringBytes (sends : Word → Option (List Byte)) (m : Memory) (a : Word) (k : Nat) : List Byte :=
  (List.range k).flatMap (fun j => (sends (m.read (a + BitVec.ofNat 16 j))).getD [])

theorem stringBytes_succ (sends : Word → Option (List Byte)) (m : Memory) (a : Word) (k : Nat) :
    stringBytes sends m a (k + 1) = (sends (m.read a)).getD [] ++ stringBytes sends m (a + 1#16) k := by
  simp only [stringBytes, List.range_succ_eq_map, List.flatMap_cons, List.flatMap_map, ← address_succ]
  simp

/-- A pass that meets its first stopping word after `k` words sends those words' bytes and ends. -/
theorem scanWords_of_stop {sends : Word → Option (List Byte)} {m : Memory} {n k : Nat} {a : Word} (hk : k < n)
    (hgo : ∀ j < k, (sends (m.read (a + BitVec.ofNat 16 j))).isSome = true)
    (hstop : sends (m.read (a + BitVec.ofNat 16 k)) = none) :
    scanWords sends m n a = (stringBytes sends m a k, true) := by
  induction k generalizing n a with
  | zero =>
    obtain ⟨n, rfl⟩ := Nat.exists_eq_succ_of_ne_zero (Nat.ne_of_gt hk)
    have h0 : sends (m.read a) = none := by simpa using hstop
    simp [scanWords, h0, stringBytes]
  | succ k ih =>
    obtain ⟨n, rfl⟩ := Nat.exists_eq_succ_of_ne_zero (show n ≠ 0 by omega)
    have h0 : (sends (m.read a)).isSome = true := by simpa using hgo 0 (by omega)
    obtain ⟨bs, hbs⟩ := Option.isSome_iff_exists.mp h0
    have hrec := ih (n := n) (a := a + 1#16) (by omega)
      (fun j hj => by simpa only [← address_succ] using hgo (j + 1) (by omega)) (by simpa only [← address_succ] using hstop)
    simp [scanWords, hbs, hrec, stringBytes_succ]

/-- A pass that meets no stopping word sends every word's bytes and does not end. -/
theorem scanWords_of_no_stop {sends : Word → Option (List Byte)} {m : Memory} {n : Nat} {a : Word}
    (hgo : ∀ j < n, (sends (m.read (a + BitVec.ofNat 16 j))).isSome = true) :
    scanWords sends m n a = (stringBytes sends m a n, false) := by
  induction n generalizing a with
  | zero => simp [scanWords, stringBytes]
  | succ n ih =>
    have h0 : (sends (m.read a)).isSome = true := by simpa using hgo 0 (by omega)
    obtain ⟨bs, hbs⟩ := Option.isSome_iff_exists.mp h0
    have hrec := ih (a := a + 1#16) (fun j hj => by simpa only [← address_succ] using hgo (j + 1) (by omega))
    simp [scanWords, hbs, hrec, stringBytes_succ]

/-- A pass that does not end has met no stopping word. -/
theorem isSome_of_scanWords_not_ended {sends : Word → Option (List Byte)} {m : Memory} {n : Nat} {a : Word}
    (h : (scanWords sends m n a).2 = false) :
    ∀ j < n, (sends (m.read (a + BitVec.ofNat 16 j))).isSome = true := by
  induction n generalizing a with
  | zero => intro j hj; omega
  | succ n ih =>
    cases hs : sends (m.read a) with
    | none => simp [scanWords, hs] at h
    | some bs =>
      simp [scanWords, hs] at h
      intro j hj
      cases j with
      | zero => simp [hs]
      | succ j => simpa only [← address_succ] using ih h j (by omega)

/-- One pass over memory reaches every address. -/
theorem exists_offset (a b : Word) : ∃ j < memorySize, a + BitVec.ofNat 16 j = b :=
  ⟨(b - a).toNat, (b - a).isLt, by
    rw [BitVec.ofNat_toNat, BitVec.setWidth_eq, BitVec.add_comm, BitVec.sub_add_cancel]⟩

@[simp] theorem putsSends_isSome (w : Word) : (putsSends w).isSome = !(w == 0) := by
  by_cases h : w = 0#16 <;> simp [putsSends, h]

@[simp] theorem putspSends_isSome (mode : PutspZeroLow) (w : Word) :
    (putspSends mode w).isSome = !(putspStops mode w) := by
  by_cases h : w = 0#16
  · simp [putspSends, putspStops, h]
  · have hw : (w == 0#16) = false := by simpa using h
    by_cases hl : lowByte w = 0#8
    · cases mode <;> simp [putspSends, putspStops, h, hw, hl]
    · have hb : (lowByte w == 0#8) = false := by simpa using hl
      simp [putspSends, putspStops, h, hw, hl, hb]

/-- A word with both bytes zero is zero. -/
theorem highByte_ne_zero {w : Word} (hw : w ≠ 0) (hl : lowByte w = 0) : highByte w ≠ 0 := fun hh => hw <| by
  have hl := congrArg BitVec.toNat hl
  have hh := congrArg BitVec.toNat hh
  have := w.isLt
  simp [lowByte, highByte, Nat.shiftRight_eq_div_pow] at hl hh
  refine BitVec.eq_of_toNat_eq ?_
  simp
  omega

/-- PUTS over words none of which is zero: bits [7:0] of each (R145). -/
theorem stringBytes_puts {m : Memory} {a : Word} {k : Nat} (h : ∀ j < k, m.read (a + BitVec.ofNat 16 j) ≠ 0) :
    stringBytes putsSends m a k = (List.range k).map (fun j => lowByte (m.read (a + BitVec.ofNat 16 j))) := by
  rw [stringBytes, List.map_eq_flatMap]
  refine List.flatMap_congr fun j hj => ?_
  rw [putsSends, if_neg (h j (List.mem_range.mp hj))]
  rfl

/-- PUTSP over words none of which stops it: the low byte, then the high byte if it is not zero (R148, R149). -/
theorem stringBytes_putsp {mode : PutspZeroLow} {m : Memory} {a : Word} {k : Nat}
    (h : ∀ j < k, putspStops mode (m.read (a + BitVec.ofNat 16 j)) = false) :
    stringBytes (putspSends mode) m a k = (List.range k).flatMap (fun j =>
      lowByte (m.read (a + BitVec.ofNat 16 j)) ::
        (if highByte (m.read (a + BitVec.ofNat 16 j)) = 0 then [] else [highByte (m.read (a + BitVec.ofNat 16 j))])) := by
  refine List.flatMap_congr fun j hj => ?_
  have hj' := h j (List.mem_range.mp hj)
  generalize m.read (a + BitVec.ofNat 16 j) = w at hj'
  have hw : w ≠ 0 := by
    rintro rfl
    simp [putspStops] at hj'
  by_cases hl : lowByte w = 0
  · cases mode with
    | truncate => simp [putspStops, hl] at hj'
    | emitNul =>
      rw [putspSends, if_neg hw, if_pos hl, if_neg (highByte_ne_zero hw hl), hl]
      rfl
  · simp only [putspSends]
    rw [if_neg hw, if_neg hl]
    rfl

section strings
variable (sends : Word → Option (List Byte)) (r : Routine) (a : Word)

@[simp] theorem sendString_regs : (sendString sends r a s).regs = s.regs := rfl
@[simp] theorem sendString_reg (q : Reg) : (sendString sends r a s).reg q = s.reg q := rfl
@[simp] theorem sendString_pc : (sendString sends r a s).pc = s.pc := rfl
@[simp] theorem sendString_cond : (sendString sends r a s).cond = s.cond := rfl
@[simp] theorem sendString_run : (sendString sends r a s).run = s.run := rfl
@[simp] theorem sendString_mem : (sendString sends r a s).mem = s.mem := rfl
@[simp] theorem sendString_raw (b : Word) : (sendString sends r a s).raw b = s.raw b := rfl
@[simp] theorem sendString_input : (sendString sends r a s).input = s.input := rfl
@[simp] theorem sendString_polls : (sendString sends r a s).polls = s.polls := rfl
@[simp] theorem sendString_pollCount : (sendString sends r a s).pollCount = s.pollCount := rfl
@[simp] theorem sendString_hostStop : (sendString sends r a s).hostStop = s.hostStop := rfl
@[simp] theorem sendString_cfg : (sendString sends r a s).cfg = s.cfg := rfl

theorem sendString_events : (sendString sends r a s).events =
    s.events ++ (scanWords sends s.mem memorySize a).1.map .writeChar := rfl

theorem sendString_inFlight : (sendString sends r a s).inFlight =
    if (scanWords sends s.mem memorySize a).2 then none else some r := rfl

/-- A string whose first stopping word is `k` words away: those words' bytes are sent and the routine completes. -/
theorem sendString_of_stop {k : Nat} (hk : k < 65536)
    (hgo : ∀ j < k, (sends (s.raw (a + BitVec.ofNat 16 j))).isSome = true)
    (hstop : sends (s.raw (a + BitVec.ofNat 16 k)) = none) :
    sendString sends r a s = (s.sendBytes (stringBytes sends s.mem a k)).setInFlight none := by
  simp only [sendString, scanWords_of_stop (m := s.mem) (n := memorySize) hk hgo hstop, if_true]

/-- A string with no stopping word anywhere: one pass is sent and the routine stays in progress. -/
theorem sendString_of_no_stop (hgo : ∀ b, (sends (s.raw b)).isSome = true) :
    sendString sends r a s = (s.sendBytes (stringBytes sends s.mem a memorySize)).setInFlight (some r) := by
  simp only [sendString, scanWords_of_no_stop (m := s.mem) (n := memorySize) (a := a) (fun _ _ => hgo _),
    Bool.false_eq_true, if_false]

/-- A string routine that stays in progress has met every word of memory and no stopping word (R150). -/
theorem no_stop_of_sendString_inFlight {q : Routine} (h : (sendString sends r a s).inFlight = some q) :
    q = r ∧ ∀ b, (sends (s.raw b)).isSome = true := by
  rw [sendString_inFlight] at h
  split at h
  · cases h
  · rename_i hn
    refine ⟨(Option.some.inj h).symm, fun b => ?_⟩
    obtain ⟨j, hj, rfl⟩ := exists_offset a b
    exact isSome_of_scanWords_not_ended (by simpa using hn) j hj

end strings

/-! ### The exception (R103, R161) -/

section exception
variable (opcode : BitVec 4)

@[simp] theorem raiseIllegalInstruction_run : (raiseIllegalInstruction opcode s).run =
    .faulted (.illegalInstruction opcode (s.pc - 1)) := rfl

/-- The exception writes RUN and nothing else. -/
theorem raiseIllegalInstruction_eq : raiseIllegalInstruction opcode s =
    { s with run := .faulted (.illegalInstruction opcode (s.pc - 1)) } := rfl

end exception

/-! ### Fetch (R101) -/

@[simp] theorem fetch_fst : (fetch s).1 = (s.afterRead s.pc).raw s.pc := rfl
@[simp] theorem fetch_snd : (fetch s).2 = (s.afterRead s.pc).incPc := rfl

end Sys2Proof.Machine
end

