-- ==== Sys2Proof/Laws/PerInstr.lean ====
section
/-! SUPPORT. The family RoundTrip: an instruction's own word decodes to it, one lemma per constructor. -/

namespace Sys2Proof.Laws.RoundTrip

/-- A well-formed instruction is what its word decodes to (R82, R99). -/
def Statement (i : Instr) : Prop := i.wellFormed = true → decodeWord (encode i) = i

theorem addReg (dr sr1 sr2 : Reg) : Statement (.addReg dr sr1 sr2) := fun _ => by
  rw [encode, decodeWord_of_1 (by simp)]; simp

theorem addImm (dr sr1 : Reg) (imm5 : BitVec 5) : Statement (.addImm dr sr1 imm5) := fun _ => by
  rw [encode, decodeWord_of_1 (by simp)]; simp

theorem andReg (dr sr1 sr2 : Reg) : Statement (.andReg dr sr1 sr2) := fun _ => by
  rw [encode, decodeWord_of_5 (by simp)]; simp

theorem andImm (dr sr1 : Reg) (imm5 : BitVec 5) : Statement (.andImm dr sr1 imm5) := fun _ => by
  rw [encode, decodeWord_of_5 (by simp)]; simp

theorem notReg (dr sr : Reg) : Statement (.notReg dr sr) := fun _ => by
  rw [encode, decodeWord_of_9 (by simp)]; simp

theorem br (mask : BitVec 3) (offset9 : BitVec 9) : Statement (.br mask offset9) := fun _ => by
  rw [encode, decodeWord_of_0 (by simp)]; simp

theorem jmp (baseR : Reg) : Statement (.jmp baseR) := fun _ => by
  rw [encode, decodeWord_of_C (by simp)]; simp

theorem jsr (offset11 : BitVec 11) : Statement (.jsr offset11) := fun _ => by
  rw [encode, decodeWord_of_4 (by simp)]; simp

theorem jsrr (baseR : Reg) : Statement (.jsrr baseR) := fun _ => by
  rw [encode, decodeWord_of_4 (by simp)]; simp

theorem ld (dr : Reg) (offset9 : BitVec 9) : Statement (.ld dr offset9) := fun _ => by
  rw [encode, decodeWord_of_2 (by simp)]; simp

theorem ldi (dr : Reg) (offset9 : BitVec 9) : Statement (.ldi dr offset9) := fun _ => by
  rw [encode, decodeWord_of_A (by simp)]; simp

theorem ldr (dr baseR : Reg) (offset6 : BitVec 6) : Statement (.ldr dr baseR offset6) := fun _ => by
  rw [encode, decodeWord_of_6 (by simp)]; simp

theorem lea (dr : Reg) (offset9 : BitVec 9) : Statement (.lea dr offset9) := fun _ => by
  rw [encode, decodeWord_of_E (by simp)]; simp

theorem st (sr : Reg) (offset9 : BitVec 9) : Statement (.st sr offset9) := fun _ => by
  rw [encode, decodeWord_of_3 (by simp)]; simp

theorem sti (sr : Reg) (offset9 : BitVec 9) : Statement (.sti sr offset9) := fun _ => by
  rw [encode, decodeWord_of_B (by simp)]; simp

theorem str (sr baseR : Reg) (offset6 : BitVec 6) : Statement (.str sr baseR offset6) := fun _ => by
  rw [encode, decodeWord_of_7 (by simp)]; simp

theorem trapGetc : Statement .trapGetc := fun _ => by rw [encode, decodeWord_of_F (by simp)]; simp [decodeTrap]

theorem trapOut : Statement .trapOut := fun _ => by rw [encode, decodeWord_of_F (by simp)]; simp [decodeTrap]

theorem trapPuts : Statement .trapPuts := fun _ => by rw [encode, decodeWord_of_F (by simp)]; simp [decodeTrap]

theorem trapIn : Statement .trapIn := fun _ => by rw [encode, decodeWord_of_F (by simp)]; simp [decodeTrap]

theorem trapPutsp : Statement .trapPutsp := fun _ => by rw [encode, decodeWord_of_F (by simp)]; simp [decodeTrap]

theorem trapHalt : Statement .trapHalt := fun _ => by rw [encode, decodeWord_of_F (by simp)]; simp [decodeTrap]

theorem trapUnknown (trapvect8 : BitVec 8) : Statement (.trapUnknown trapvect8) := fun h => by
  rw [encode, decodeWord_of_F (by simp)]
  simpa using decodeTrap_of_unknown h

theorem rtiSlot : Statement .rtiSlot := fun _ => by decide

theorem reservedSlot : Statement .reservedSlot := fun _ => by decide

end Sys2Proof.Laws.RoundTrip
end

