-- ==== Sys2Proof/Laws/Step.lean ====
section
/-! SUPPORT. What a step can do, once and for all; every invariant of the machine is derived from it. -/

namespace Sys2Proof.Machine

/-- Every instruction runs: no meaning faults or refuses. -/
theorem exec_answers_next (i : Instr) (s : State) : ∃ t, exec i s = .next t := by
  cases i with
  | jsrr b =>
    show ∃ t, execJsrr b s = .next t
    unfold execJsrr
    split <;> exact ⟨_, rfl⟩
  | _ => exact ⟨_, rfl⟩

/-- The two things that keep a running machine's step from happening. -/
theorem step_of_stop {s : State} (hr : s.run = .running) (h : s.stopTaken = true) : step s = .fault .hostStop := by
  simp [step, hr, h]

theorem step_of_inFlight {s : State} {r : Routine} (hr : s.run = .running) (h : s.stopTaken = false)
    (hf : s.inFlight = some r) : step s = .next (resume r s) := by
  simp [step, hr, h, hf]

theorem step_of_fetching {s : State} (h : s.Fetching) : step s = exec (decodeWord (fetch s).1) (fetch s).2 := by
  obtain ⟨hr, hf, hs⟩ := h
  simp [step, hr, hf, State.stopTaken, hs]

/-- All a step that answers a next state can be: a routine that goes on, or one instruction. -/
theorem step_cases {s t : State} (h : step s = .next t) :
    (∃ r, s.run = .running ∧ s.inFlight = some r ∧ t = resume r s) ∨
    (s.Fetching ∧ exec (decodeWord (fetch s).1) (fetch s).2 = .next t) := by
  unfold step at h
  split at h
  · cases h
  · cases h
  · rename_i hr
    split at h
    · cases h
    · rename_i hs
      split at h
      · rename_i r hf
        cases h
        exact .inl ⟨r, hr, hf, rfl⟩
      · rename_i hf
        refine .inr ⟨⟨hr, hf, ?_⟩, h⟩
        simpa [State.stopTaken, hf] using hs

/-- A run whose first step answers a next state goes on from it. -/
theorem run_succ_of_step {s t : State} (h : step s = .next t) (k : Nat) : core.run (k + 1) s = core.run k t := by
  have h' : core.step s = .next t := h
  simp only [Host.Core.run, h']

end Sys2Proof.Machine
end

