-- ==== Sys2Proof/Tests/Slice0.lean ====
section
/-! SUPPORT. Tests. Expected values come from the spec: words from the field layout of R82, one-step results from the
vectors of 95_test_vectors.md (the V number of each stands in its docstring). After them, for every statement with
hypotheses, a witness that meets them. -/

namespace Sys2Proof.Tests

open Sys2Proof Sys2Proof.Machine

/-! ### WellFormed refuses an ill-formed term (R94) -/

theorem test_known_vectors_are_no_unknown_vectors :
    (Instr.trapUnknown 0x20).wellFormed = false ∧ (Instr.trapUnknown 0x21).wellFormed = false ∧
    (Instr.trapUnknown 0x22).wellFormed = false ∧ (Instr.trapUnknown 0x23).wellFormed = false ∧
    (Instr.trapUnknown 0x24).wellFormed = false ∧ (Instr.trapUnknown 0x25).wellFormed = false := by decide

theorem test_other_vectors_are_unknown_vectors :
    (Instr.trapUnknown 0x1F).wellFormed = true ∧ (Instr.trapUnknown 0x26).wellFormed = true ∧
    (Instr.trapUnknown 0x00).wellFormed = true ∧ (Instr.trapUnknown 0xFF).wellFormed = true := by decide

/-! ### Decoding words written out bit by bit from R82 -/

/-- 15:12 | 11:9 DR | 8:6 SR1 | 5 mode | 4:0 imm5, or 4:3 ignored and 2:0 SR2. -/
theorem test_decode_add_and :
    decodeWord 0b0001_001_010_0_00_011 = .addReg 1 2 3 ∧ decodeWord 0b0001_110_101_0_11_100 = .addReg 6 5 4 ∧
    decodeWord 0b0001_001_010_1_11101 = .addImm 1 2 0b11101 ∧
    decodeWord 0b0101_011_001_0_00_010 = .andReg 3 1 2 ∧
    decodeWord 0b0101_111_000_1_10000 = .andImm 7 0 0b10000 := by decide

/-- NOT: 15:12 | 11:9 DR | 8:6 SR | 5:0 ignored. -/
theorem test_decode_not :
    decodeWord 0b1001_100_101_111111 = .notReg 4 5 ∧ decodeWord 0b1001_000_001_000000 = .notReg 0 1 := by decide

/-- BR: 11 n, 10 z, 9 p, 8:0. JMP: 8:6 BaseR. JSR: 11 is 1, 10:0. JSRR: 11 is 0, 8:6 BaseR. -/
theorem test_decode_control :
    decodeWord 0b0000_101_000000011 = .br 0b101 3 ∧ decodeWord 0b1100_000_011_000000 = .jmp 3 ∧
    decodeWord 0b1100_111_010_111111 = .jmp 2 ∧ decodeWord 0b0100_1_10000000001 = .jsr 0b10000000001 ∧
    decodeWord 0b0100_0_00_010_000000 = .jsrr 2 ∧ decodeWord 0b0100_0_11_001_111111 = .jsrr 1 := by decide

/-- LD, LDI, LEA: 11:9 DR | 8:0. LDR: 11:9 DR | 8:6 BaseR | 5:0. -/
theorem test_decode_loads :
    decodeWord 0b0010_010_100000010 = .ld 2 0b100000010 ∧ decodeWord 0b1010_011_000000001 = .ldi 3 1 ∧
    decodeWord 0b0110_100_001_111110 = .ldr 4 1 0b111110 ∧
    decodeWord 0b1110_101_100000000 = .lea 5 0b100000000 := by decide

/-- ST, STI: 11:9 SR | 8:0. STR: 11:9 SR | 8:6 BaseR | 5:0. -/
theorem test_decode_stores :
    decodeWord 0b0011_001_111111111 = .st 1 0b111111111 ∧ decodeWord 0b1011_001_000000011 = .sti 1 3 ∧
    decodeWord 0b0111_110_101_011111 = .str 6 5 31 := by decide

/-- TRAP: 15:12 | 11:8 ignored | 7:0 vector (vectors of R94). -/
theorem test_decode_trap :
    decodeWord 0b1111_0000_00100000 = .trapGetc ∧ decodeWord 0b1111_0000_00100001 = .trapOut ∧
    decodeWord 0b1111_0000_00100010 = .trapPuts ∧ decodeWord 0b1111_0000_00100011 = .trapIn ∧
    decodeWord 0b1111_0000_00100100 = .trapPutsp ∧ decodeWord 0b1111_1111_00100101 = .trapHalt ∧
    decodeWord 0b1111_0000_00100110 = .trapUnknown 0x26 ∧
    decodeWord 0b1111_0101_00011111 = .trapUnknown 0x1F := by decide

/-- The illegal opcodes 1000 and 1101 (R93). -/
theorem test_decode_illegal :
    decodeWord 0b1000_000000000000 = .rtiSlot ∧ decodeWord 0b1000_111111111111 = .rtiSlot ∧
    decodeWord 0b1101_000000000000 = .reservedSlot ∧ decodeWord 0b1101_111111111111 = .reservedSlot := by decide

/-- L1.2 of 95_test_vectors.md. -/
theorem test_sext :
    sext (0b10000 : BitVec 5) = 0xFFF0 ∧ sext (0b01111 : BitVec 5) = 0x000F ∧ sext (0b100000 : BitVec 6) = 0xFFE0 ∧
    sext (0x100 : BitVec 9) = 0xFF00 ∧ sext (0x0FF : BitVec 9) = 0x00FF ∧ sext (0x400 : BitVec 11) = 0xFC00 ∧
    sext (0x3FF : BitVec 11) = 0x03FF := by decide

/-! ### One step of every instruction -/

/-- A state before a step: reset but for COND, the listed registers and memory words, and PC. -/
def pre (c : Cond) (rs : List (Reg × Word)) (ms : List (Word × Word)) (pc : Word := 0x3000) : State :=
  ms.foldl (fun s p => s.memWrite p.1 p.2)
    (rs.foldl (fun s p => s.setReg p.1 p.2) { State.reset with cond := c, pc := pc })

/-- The state with these input bytes, the next PollReady answering true. -/
def withInput (bs : List Byte) (s : State) : State := { s with input := bs, polls := [true] }

/-- One step of the word `w` from `s` answers a next state of which `f` holds. -/
def after (w : Nat) (s : State) (f : State → Bool) : Bool :=
  match step (s.withFetchWord 16 w) with
  | .next t => f t
  | .fault _ => false
  | .refused _ => false

/-- V2: 0x7FFF + 1 overflows without a trap. -/
theorem test_add_reg_overflow : after 0x1283 (pre .z [(2, 0x7FFF), (3, 0x0001)] [])
    (fun t => t.reg 1 == 0x8000 && t.pc == 0x3001 && t.cond == .n) = true := by decide

/-- V8: bits [4:3] are ignored. -/
theorem test_add_reg_ignored_bits : after 0x171D (pre .z [(4, 2), (5, 3)] [])
    (fun t => t.reg 3 == 5 && t.cond == .p) = true := by decide

/-- V5: the largest imm5. -/
theorem test_add_imm_largest : after 0x102F (pre .z [(0, 0xFFF1)] [])
    (fun t => t.reg 0 == 0 && t.cond == .z) = true := by decide

/-- V6: the smallest imm5. -/
theorem test_add_imm_smallest : after 0x1030 (pre .n [(0, 0x0010)] [])
    (fun t => t.reg 0 == 0 && t.cond == .z) = true := by decide

/-- V10. -/
theorem test_and_reg : after 0x5042 (pre .z [(1, 0xF0F0), (2, 0x0FF0)] [])
    (fun t => t.reg 0 == 0x00F0 && t.cond == .p) = true := by decide

/-- V12: a negative imm5. -/
theorem test_and_imm_negative : after 0x5270 (pre .z [(1, 0x8ABC)] [])
    (fun t => t.reg 1 == 0x8AB0 && t.cond == .n) = true := by decide

/-- V15. -/
theorem test_not : after 0x997F (pre .z [(5, 0x00FF)] [])
    (fun t => t.reg 4 == 0xFF00 && t.cond == .n) = true := by decide

/-- V17: bits [5:0] are ignored. -/
theorem test_not_ignored_bits : after 0x9040 (pre .z [(1, 0)] [])
    (fun t => t.reg 0 == 0xFFFF && t.cond == .n) = true := by decide

/-- V22: BRzp under N is not taken. -/
theorem test_br_not_taken : after 0x0603 (pre .n [] []) (fun t => t.pc == 0x3001 && t.cond == .n) = true := by decide

/-- V26: the target wraps below 0x0000. -/
theorem test_br_wraps : after 0x0F00 (pre .z [] [] 0x0010) (fun t => t.pc == 0xFF11) = true := by decide

/-- V30: bits [11:9] and [5:0] are ignored. -/
theorem test_jmp_ignored_bits : after 0xCEBF (pre .z [(2, 0x1234)] [])
    (fun t => t.pc == 0x1234 && t.reg 7 == 0) = true := by decide

/-- V29. -/
theorem test_ret : after 0xC1C0 (pre .z [(7, 0x3100)] []) (fun t => t.pc == 0x3100) = true := by decide

/-- V33: the smallest offset. -/
theorem test_jsr_smallest : after 0x4C00 (pre .z [] []) (fun t => t.pc == 0x2C01 && t.reg 7 == 0x3001) = true := by
  decide

/-- V34: the target wraps past 0xFFFF. -/
theorem test_jsr_wraps : after 0x4810 (pre .z [] [] 0xFFFE) (fun t => t.pc == 0x000F && t.reg 7 == 0xFFFF) = true := by
  decide

/-- V36: JSRR R7 under LinkFirst falls through. -/
theorem test_jsrr_r7_link_first : after 0x41C0 (pre .z [(7, 0x5000)] [])
    (fun t => t.pc == 0x3001 && t.reg 7 == 0x3001) = true := by decide

/-- P7: JSRR R7 under TargetFirst jumps to the old R7. -/
theorem test_jsrr_r7_target_first : after 0x41C0
    { pre .z [(7, 0x3004)] [] 0x3001 with cfg := { Config.default with jsrrLinkOrder := .targetFirst } }
    (fun t => t.pc == 0x3004 && t.reg 7 == 0x3002) = true := by decide

/-- V39: the smallest offset; the loaded zero sets Z. -/
theorem test_ld_smallest : after 0x2500 (pre .p [(2, 1)] []) (fun t => t.reg 2 == 0 && t.cond == .z) = true := by decide

/-- V41: a load of KBSR polls and stages the byte. -/
theorem test_ld_kbsr_ready : after 0x2200 (withInput [0x4B] (pre .z [] [] 0xFDFF))
    (fun t => t.reg 1 == 0x8000 && t.raw 0xFE00 == 0x8000 && t.raw 0xFE02 == 0x004B && t.input == []) = true := by
  decide

/-- V43. -/
theorem test_ldi : after 0xA601 (pre .z [] [(0x3002, 0x4000), (0x4000, 0x0042)])
    (fun t => t.reg 3 == 0x0042 && t.cond == .p) = true := by decide

/-- V45: a read of KBDR does not poll. -/
theorem test_ldi_kbdr : after 0xA201 (withInput [0x41] (pre .z [] [(0x3002, 0xFE02), (0xFE02, 0x0061)]))
    (fun t => t.reg 1 == 0x0061 && t.events == [] && t.input == [0x41]) = true := by decide

/-- V48: DR is the base register. -/
theorem test_ldr_own_base : after 0x625F (pre .z [(1, 0x4000)] [(0x401F, 1)])
    (fun t => t.reg 1 == 1 && t.cond == .p) = true := by decide

/-- V49: the address wraps to 0xFFFF. -/
theorem test_ldr_wraps : after 0x60BF (pre .z [(2, 0)] [(0xFFFF, 0x0123)])
    (fun t => t.reg 0 == 0x0123) = true := by decide

/-- V53: PC wraps first. -/
theorem test_lea_wraps : after 0xE1FF (pre .z [] [] 0xFFFF)
    (fun t => t.reg 0 == 0xFFFF && t.pc == 0 && t.cond == .n) = true := by decide

/-- V54: the address of KBSR computed, no poll. -/
theorem test_lea_does_not_poll : after 0xE200 (pre .z [] [] 0xFDFF)
    (fun t => t.reg 1 == 0xFE00 && t.events == [] && t.cond == .n) = true := by decide

/-- V55: an instruction that overwrites itself. -/
theorem test_st_itself : after 0x33FF (pre .z [(1, 0xBEEF)] [])
    (fun t => t.raw 0x3000 == 0xBEEF && t.cond == .z) = true := by decide

/-- V57: a store to KBSR is a plain store. -/
theorem test_st_kbsr : after 0x3400 (pre .z [(2, 0x1234)] [] 0xFDFF)
    (fun t => t.raw 0xFE00 == 0x1234 && t.events == []) = true := by decide

/-- V58. -/
theorem test_sti : after 0xB203 (pre .z [(1, 0xBEEF)] [(0x3004, 0x5000)])
    (fun t => t.raw 0x5000 == 0xBEEF && t.raw 0x3004 == 0x5000) = true := by decide

/-- V59: the pointer read polls. -/
theorem test_sti_pointer_at_kbsr : after 0xB000 (pre .z [(0, 0x00AA)] [(0xFE00, 0x7777)] 0xFDFF)
    (fun t => t.raw 0x0000 == 0x00AA && t.raw 0xFE00 == 0 && t.events == [.pollReady false]) = true := by decide

/-- V60: the address wraps. -/
theorem test_str_wraps : after 0x7D5F (pre .z [(6, 7), (5, 0xFFF0)] []) (fun t => t.raw 0x000F == 7) = true := by decide

/-- V61: the smallest offset; SR is the base register. -/
theorem test_str_own_base : after 0x76E0 (pre .z [(3, 0x4020)] []) (fun t => t.raw 0x4000 == 0x4020) = true := by decide

/-- V63: a zero byte sets Z. -/
theorem test_getc_zero : after 0xF020 (withInput [0x00] (pre .p [(0, 5)] []))
    (fun t => t.reg 0 == 0 && t.cond == .z && t.reg 7 == 0x3001) = true := by decide

/-- V62, and the bytes that follow stay. -/
theorem test_getc : after 0xF020 (withInput [0x41, 0x42] (pre .z [] []))
    (fun t => t.reg 0 == 0x0041 && t.cond == .p && t.input == [0x42] && t.output == []) = true := by decide

/-- V64: only bits [7:0] are sent. -/
theorem test_out : after 0xF021 (pre .z [(0, 0x0141)] []) (fun t => t.output == [0x41] && t.cond == .z) = true := by
  decide

/-- V77: the link wraps to 0x0000. -/
theorem test_out_link_wraps : after 0xF021 (pre .z [(0, 0x005A)] [] 0xFFFF)
    (fun t => t.output == [0x5A] && t.pc == 0 && t.reg 7 == 0) = true := by decide

/-- V66: the word 0x0100 sends 0x00 and continues. -/
theorem test_puts_low_bytes : after 0xF022 (pre .z [(0, 0x4000)] [(0x4000, 0x0100), (0x4001, 0x0041)])
    (fun t => t.output == [0x00, 0x41] && t.inFlight == none) = true := by decide

/-- V67: the string wraps from 0xFFFF to 0x0000. -/
theorem test_puts_wraps : after 0xF022 (pre .z [(0, 0xFFFF)] [(0xFFFF, 0x0041), (0, 0x0042)])
    (fun t => t.output == [0x41, 0x42] && t.reg 0 == 0xFFFF) = true := by decide

/-- V69. -/
theorem test_in : after 0xF023 (withInput [0x79] (pre .z [] []))
    (fun t => t.reg 0 == 0x0079 && t.cond == .p && t.output == Config.defaultPrompt ++ [0x79]) = true := by decide

/-- R147: with no input IN waits, its prompt already sent. -/
theorem test_in_blocked : after 0xF023 (pre .z [(0, 5)] [])
    (fun t => t.output == Config.defaultPrompt && t.inFlight == some .inChar && t.reg 0 == 5) = true := by decide

/-- V71: a zero low byte ends the string under Truncate. -/
theorem test_putsp_truncate : after 0xF024
    (pre .z [(0, 0x4000)] [(0x4000, 0x4241), (0x4001, 0x4300), (0x4002, 0x4544)])
    (fun t => t.output == [0x41, 0x42] && t.inFlight == none) = true := by decide

/-- V72: the same memory under EmitNul. -/
theorem test_putsp_emit_nul : after 0xF024
    { pre .z [(0, 0x4000)] [(0x4000, 0x4241), (0x4001, 0x4300), (0x4002, 0x4544)] with
      cfg := { Config.default with putspZeroLow := .emitNul } }
    (fun t => t.output == [0x41, 0x42, 0x00, 0x43, 0x44, 0x45]) = true := by decide

/-- V73. -/
theorem test_halt : after 0xF025 (pre .z [(7, 0x1111)] [])
    (fun t => t.run == .halted && t.pc == 0x3001 && t.reg 7 == 0x3001 && t.output == Config.defaultNotice) = true := by
  decide

/-- V76: bits [11:8] are ignored. -/
theorem test_halt_ignored_bits : after 0xFF25 (pre .z [] []) (fun t => t.run == .halted) = true := by decide

/-- V74: only the link write. -/
theorem test_unknown_vector : after 0xF000 (pre .n [(7, 0x1111)] [])
    (fun t => t.reg 7 == 0x3001 && t.pc == 0x3001 && t.cond == .n && t.run == .running) = true := by decide

/-- V75. -/
theorem test_unknown_vector_ff : after 0xF0FF (pre .z [] [])
    (fun t => t.reg 7 == 0x3001 && t.events == []) = true := by decide

/-- V78. -/
theorem test_rti_slot : after 0x8000 (pre .z [(1, 5)] [])
    (fun t => t.run == .faulted (.illegalInstruction 0x8 0x3000) && t.pc == 0x3001 && t.reg 1 == 5) = true := by decide

/-- V79. -/
theorem test_reserved_slot : after 0xDFFF (pre .z [] [])
    (fun t => t.run == .faulted (.illegalInstruction 0xD 0x3000) && t.pc == 0x3001) = true := by decide

/-- V80: a fetch from KBSR with input ready executes 0x8000. -/
theorem test_fetch_from_kbsr_ready : after 0x0000 (withInput [0x51] (pre .z [] [] 0xFE00))
    (fun t => t.run == .faulted (.illegalInstruction 0x8 0xFE00) && t.raw 0xFE02 == 0x0051 && t.pc == 0xFE01) = true := by
  decide

/-- V81: a fetch from KBSR without input executes 0x0000. -/
theorem test_fetch_from_kbsr_not_ready : after 0x1234 (pre .z [(1, 3)] [] 0xFE00)
    (fun t => t.run == .running && t.raw 0xFE00 == 0 && t.pc == 0xFE01 && t.reg 1 == 3) = true := by decide

/-- The first of the opcode table's rows as the host lays them out, and a word longer than an instruction. -/
theorem test_decodeTableWord :
    decodeTableWord 16 0x1283 = some (.addReg 1 2 3) ∧ decodeTableWord 16 0xD000 = some .reservedSlot ∧
    decodeTableWord 32 0x1283 = none := by decide

/-! ### Witnesses: states and operands that meet the hypotheses of the statements, clause by clause -/

/-- A memory whose first `n` words from `a` on are 0x0101, a word no string routine stops at. -/
def filled : Nat → Nat → Memory
  | 0, _ => []
  | n + 1, a => (a, 0x0101) :: filled n (a + 1)

theorem filled_readAt (n a b : Nat) :
    Memory.readAt (filled n a) b = if a ≤ b ∧ b < a + n then 0x0101 else unlistedWord := by
  induction n generalizing a with
  | zero => simp [filled, Memory.readAt]
  | succ n ih =>
    simp only [filled, Memory.readAt, ih]
    by_cases h : a = b
    · rw [if_pos h, if_pos (by omega)]
    · rw [if_neg h]
      by_cases h' : a + 1 ≤ b ∧ b < a + 1 + n
      · rw [if_pos h', if_pos (by omega)]
      · rw [if_neg h', if_neg (by omega)]

/-- Reset with memory filled from 0x0000 on. -/
def filledState (n : Nat) : State := { State.reset with mem := filled n 0 }

theorem filledState_raw (n : Nat) (a : Word) :
    (filledState n).raw a = if a.toNat < n then 0x0101 else 0 := by
  show Memory.readAt (filled n 0) a.toNat = _
  rw [filled_readAt]
  simp [unlistedWord]

theorem witness_DecodeOfEncodeIsTheInstruction :
    (Instr.trapUnknown 0x1F).wellFormed = true ∧ (Instr.trapUnknown 0x26).wellFormed = true ∧
    (Instr.ldr 7 7 0b100000).wellFormed = true := by decide

theorem witness_DecodeReadsExactlyTheUsedBits :
    (0x171D : Word) &&& usedBits (decodeWord 0x1705) = 0x1705 &&& usedBits (decodeWord 0x1705) ∧
    (0xFF25 : Word) &&& usedBits (decodeWord 0xF025) = 0xF025 &&& usedBits (decodeWord 0xF025) := by decide

theorem witness_DecoderIsTheOpcodeTable : ∃ r q, opcodeTable[16]? = some r ∧ opcodeTable[22]? = some q ∧
    r.matches 0xF020 = true ∧ q.matches 0xF020 = true := ⟨_, _, rfl, rfl, by decide, by decide⟩

theorem witness_TrapVectorsSelectRoutines :
    opcodeOf 0xF020 = 0xF ∧ trapvect8Of 0xF020 = 0x20 ∧ trapvect8Of 0xF121 = 0x21 ∧ trapvect8Of 0xF022 = 0x22 ∧
    trapvect8Of 0xF023 = 0x23 ∧ trapvect8Of 0xF024 = 0x24 ∧ opcodeOf 0xFF25 = 0xF ∧ trapvect8Of 0xFF25 = 0x25 ∧
    (trapvect8Of 0xF01F).toNat < 0x20 ∧ 0x25 < (trapvect8Of 0xF026).toNat := by decide

theorem witness_SignExtensionReplicatesTheSignBit :
    (0b0 : BitVec 1).getLsbD 0 = false ∧ (0b1 : BitVec 1).getLsbD 0 = true ∧
    (0b01111 : BitVec 5).getLsbD 4 = false ∧ (0b10000 : BitVec 5).getLsbD 4 = true ∧
    (0x7FFF : BitVec 16).getLsbD 15 = false ∧ (0x8000 : BitVec 16).getLsbD 15 = true := by decide

theorem witness_SetCCFollowsTheSign :
    (0x8000 : Word) ≠ 0 ∧ (0x8000 : Word).getLsbD 15 = true ∧ (0x7FFF : Word) ≠ 0 ∧
    (0x7FFF : Word).getLsbD 15 = false ∧ (0x0001 : Word).getLsbD 15 = false ∧ (0xFFFF : Word).getLsbD 15 = true := by
  decide

theorem witness_MemReadElsewhereHasNoSideEffect :
    (0xFE02 : Word) ≠ State.reset.cfg.kbsrAddr ∧ (0xFE01 : Word) ≠ State.reset.cfg.kbsrAddr := by decide

theorem witness_MemReadOfKbsrPolls :
    State.reset.mem.wf = true ∧ State.reset.cfg.kbsrAddr ≠ State.reset.cfg.kbdrAddr ∧ State.reset.input = [] ∧
    (withInput [0x4B] State.reset).mem.wf = true ∧ (withInput [0x4B] State.reset).input ≠ [] ∧
    (withInput [0x4B] State.reset).polls = true :: [] := by decide

theorem witness_StagedCharacterReadsBack :
    State.reset.mem.wf = true ∧ State.reset.input = [] ∧ (withInput [0x4B] State.reset).mem.wf = true ∧
    (withInput [0x4B] State.reset).cfg.kbsrAddr ≠ (withInput [0x4B] State.reset).cfg.kbdrAddr ∧
    (withInput [0x4B] State.reset).input = 0x4B :: [] ∧ (withInput [0x4B] State.reset).polls = true :: [] ∧
    ∀ a ∈ ([0xFE02, 0xFE01] : List Word), a ≠ (withInput [0x4B] State.reset).cfg.kbsrAddr :=
  ⟨rfl, rfl, rfl, by decide, rfl, rfl, by simp [withInput, State.reset, State.powerOn, Config.default]⟩

/-- For MemWriteStoresOneWord and StoreToKbsrIsNeverReadBack. -/
theorem witness_StoreToKbsrIsNeverReadBack :
    (filledState 3).mem.wf = true ∧ (filledState 3).cfg.kbsrAddr ≠ (filledState 3).cfg.kbdrAddr := by decide

theorem witness_StoresCommute : (filled 3 0).wf = true ∧ (0x0000 : Word) ≠ 0xFFFF := by decide

/-- For the statements about one form: a word of its opcode and mode. -/
theorem witness_forms :
    (opcodeOf 0x1283 = 0x1 ∧ modeBit 0x1283 = false) ∧ (opcodeOf 0x127F = 0x1 ∧ modeBit 0x127F = true) ∧
    (opcodeOf 0x5042 = 0x5 ∧ modeBit 0x5042 = false) ∧ (opcodeOf 0x54A0 = 0x5 ∧ modeBit 0x54A0 = true) ∧
    opcodeOf 0x997F = 0x9 ∧ opcodeOf 0x0405 = 0x0 ∧ opcodeOf 0xC0C0 = 0xC ∧
    (opcodeOf 0x4FFF = 0x4 ∧ longBit 0x4FFF = true) ∧ (opcodeOf 0x4080 = 0x4 ∧ longBit 0x4080 = false) ∧
    opcodeOf 0x2402 = 0x2 ∧ opcodeOf 0xA601 = 0xA ∧ opcodeOf 0x687E = 0x6 ∧ opcodeOf 0xEB00 = 0xE ∧
    opcodeOf 0x33FF = 0x3 ∧ opcodeOf 0xB203 = 0xB ∧ opcodeOf 0x7D5F = 0x7 ∧ opcodeOf 0x8000 = 0x8 ∧
    opcodeOf 0xDFFF = 0xD := by decide

/-- A load and a pointer read that do not poll: the inner hypotheses of the statements about LD, LDI, LDR and STI. -/
theorem witness_LoadIndirect :
    State.reset.pc + sext (0b000000001 : BitVec 9) ≠ State.reset.cfg.kbsrAddr ∧
    State.reset.raw (State.reset.pc + sext (0b000000001 : BitVec 9)) ≠ State.reset.cfg.kbsrAddr := by decide

theorem witness_FormsAgree : (pre .z [(3, 0xFFFD)] []).reg 3 = sext (0b11101 : BitVec 5) := by decide

/-- For GETC and IN with a byte there, zero and not. -/
theorem witness_GetcReadsOneByte :
    (withInput [0x00] State.reset).input = 0x00 :: [] ∧ (withInput [0x41, 0x42] State.reset).input = 0x41 :: [0x42] := by
  decide

/-- An empty string (k = 0), a string that wraps (k = 2) and the longest that ends (k = 65535). -/
theorem witness_PutsSendsUpToAZeroWord :
    State.reset.raw (State.reset.reg 0 + BitVec.ofNat 16 0) = 0 ∧
    ((∀ j < 2, (pre .z [(0, 0xFFFF)] [(0xFFFF, 0x41), (0, 0x42)]).raw (0xFFFF + BitVec.ofNat 16 j) ≠ 0) ∧
      (pre .z [(0, 0xFFFF)] [(0xFFFF, 0x41), (0, 0x42)]).raw (0xFFFF + BitVec.ofNat 16 2) = 0) ∧
    ((∀ j < 65535, (filledState 65535).raw ((filledState 65535).reg 0 + BitVec.ofNat 16 j) ≠ 0) ∧
      (filledState 65535).raw ((filledState 65535).reg 0 + BitVec.ofNat 16 65535) = 0) := by
  have h0 : (filledState 65535).reg 0 = 0#16 := rfl
  refine ⟨by decide, by decide, fun j hj => ?_, ?_⟩
  · rw [h0, filledState_raw, if_pos (by simp; omega)]
    decide
  · rw [h0, filledState_raw, if_neg (by simp)]

/-- Under Truncate a string that a zero low byte ends, under EmitNul one that goes on past it to a zero word; and the
longest that ends. -/
theorem witness_PutspSendsPackedBytes :
    ((∀ j < 1, (pre .z [] [(0, 0x4241), (1, 0x4300)]).raw (0 + BitVec.ofNat 16 j) ≠ 0 ∧
        lowByte ((pre .z [] [(0, 0x4241), (1, 0x4300)]).raw (0 + BitVec.ofNat 16 j)) ≠ 0) ∧
      lowByte ((pre .z [] [(0, 0x4241), (1, 0x4300)]).raw (0 + BitVec.ofNat 16 1)) = 0) ∧
    ((∀ j < 2, (pre .z [] [(0, 0x4241), (1, 0x4300)]).raw (0 + BitVec.ofNat 16 j) ≠ 0) ∧
      (pre .z [] [(0, 0x4241), (1, 0x4300)]).raw (0 + BitVec.ofNat 16 2) = 0 ∧
      PutspZeroLow.emitNul ≠ PutspZeroLow.truncate) ∧
    ((∀ j < 65535, (filledState 65535).raw (0#16 + BitVec.ofNat 16 j) ≠ 0 ∧
        lowByte ((filledState 65535).raw (0#16 + BitVec.ofNat 16 j)) ≠ 0) ∧
      (filledState 65535).raw (0#16 + BitVec.ofNat 16 65535) = 0) := by
  refine ⟨by decide, by decide, fun j hj => ?_, ?_⟩
  · rw [filledState_raw, if_pos (by simp; omega)]
    decide
  · rw [filledState_raw, if_neg (by simp)]

theorem witness_BlockedReadWaitsAndGoesOn :
    State.reset.run = .running ∧ State.reset.hostStop = false ∧ State.reset.input = [] := by decide

/-- A memory with no stopping word anywhere. -/
theorem witness_EndlessStringNeverCompletes :
    (filledState 65536).run = .running ∧ (∀ a, (filledState 65536).raw a ≠ 0) ∧
    (∀ a, (filledState 65536).raw a ≠ 0 ∧
      ((filledState 65536).cfg.putspZeroLow = .truncate → lowByte ((filledState 65536).raw a) ≠ 0)) := by
  have h : ∀ a, (filledState 65536).raw a = 0x0101 := fun a => by rw [filledState_raw, if_pos a.isLt]
  refine ⟨rfl, fun a => ?_, fun a => ?_⟩
  · rw [h]
    decide
  · rw [h]
    decide

theorem reset_fetching : State.reset.Fetching := ⟨rfl, rfl, rfl⟩

theorem witness_StepRunsTheDecodedInstruction :
    State.reset.Fetching ∧ State.reset.About 0x0000 ∧ (pre .z [] [(0x3000, 0x1283)]).About 0x1283 :=
  ⟨reset_fetching, ⟨reset_fetching, by decide, by decide⟩, ⟨rfl, rfl, rfl⟩, by decide, by decide⟩

/-- A ready answer, no input, and pending input with a false draw. -/
theorem witness_FetchFromKbsrExecutesThePoll :
    (withInput [0x51] (pre .z [] [] 0xFE00)).Fetching ∧
    (withInput [0x51] (pre .z [] [] 0xFE00)).pc = (withInput [0x51] (pre .z [] [] 0xFE00)).cfg.kbsrAddr ∧
    (withInput [0x51] (pre .z [] [] 0xFE00)).mem.wf = true ∧
    (withInput [0x51] (pre .z [] [] 0xFE00)).cfg.kbsrAddr ≠ (withInput [0x51] (pre .z [] [] 0xFE00)).cfg.kbdrAddr ∧
    (withInput [0x51] (pre .z [] [] 0xFE00)).input ≠ [] ∧
    (withInput [0x51] (pre .z [] [] 0xFE00)).polls = true :: [] ∧
    (withInput [0x51] (pre .z [] [] 0xFE00)).pollAnswer = true ∧
    (pre .z [] [] 0xFE00).Fetching ∧ (pre .z [] [] 0xFE00).pc = (pre .z [] [] 0xFE00).cfg.kbsrAddr ∧
    (pre .z [] [] 0xFE00).input = [] ∧ (pre .z [] [] 0xFE00).pollAnswer = false ∧
    ({ withInput [0x51] (pre .z [] [] 0xFE00) with polls := [false] }).Fetching ∧
    ({ withInput [0x51] (pre .z [] [] 0xFE00) with polls := [false] }).input ≠ [] ∧
    ({ withInput [0x51] (pre .z [] [] 0xFE00) with polls := [false] }).pollAnswer = false :=
  ⟨⟨rfl, rfl, rfl⟩, rfl, rfl, by decide, by decide, rfl, rfl, ⟨rfl, rfl, rfl⟩, rfl, rfl, rfl, ⟨rfl, rfl, rfl⟩,
    by decide, rfl⟩

theorem witness_NoStepAfterTheEnd :
    (State.reset.setRun .halted).run = .halted ∧
    (raiseIllegalInstruction 0xD State.reset).run = .faulted (.illegalInstruction 0xD 0x2FFF) ∧
    (∃ t, exec .trapHalt State.reset = .next t) ∧ ∃ t, exec .rtiSlot State.reset = .next t :=
  ⟨rfl, rfl, ⟨_, rfl⟩, ⟨_, rfl⟩⟩

theorem witness_HostStopIsTakenBetweenSteps :
    State.reset.requestStop.run = .running ∧ State.reset.requestStop.hostStop = true ∧
    State.reset.requestStop.inFlight = none ∧
    (State.reset.requestStop.setInFlight (some .getc)).inFlight = some .getc ∧
    (State.reset.requestStop.setInFlight (some .inChar)).inFlight = some .inChar ∧
    (ExitCodes.mk 2 1 (-2) 134).Distinct := ⟨rfl, rfl, rfl, rfl, rfl, by decide⟩

/-- The hypotheses at the reset state, and runs of one step that end Faulted and Halted. -/
theorem witness_ARunningMachineAlwaysSteps :
    State.reset.run = .running ∧ State.reset.hostStop = false ∧
    after 0x8000 State.reset (fun t => t.run == .faulted (.illegalInstruction 0x8 0x3000)) = true ∧
    after 0xF025 State.reset (fun t => t.run == .halted) = true := by decide

theorem witness_IllegalWordIsPrecise :
    (pre .z [] [(0x3000, 0x8000)]).About 0x8000 ∧ opcodeOf 0x8000 = 0x8 ∧
    (pre .z [] [(0x3000, 0xDFFF)]).About 0xDFFF ∧ opcodeOf 0xDFFF = 0xD :=
  ⟨⟨⟨rfl, rfl, rfl⟩, by decide, by decide⟩, by decide, ⟨⟨rfl, rfl, rfl⟩, by decide, by decide⟩, by decide⟩

/-- P6: the store reaches the word fetched next; also through a pointer and from a base register. -/
theorem witness_StoreReachesTheNextFetch :
    (pre .z [(1, 0x14A7)] [] 0x3002).mem.wf = true ∧ (pre .z [(1, 0x14A7)] [] 0x3002).Fetching ∧
    (pre .z [(1, 0x14A7)] [] 0x3002).pc ≠ (pre .z [(1, 0x14A7)] [] 0x3002).cfg.kbsrAddr ∧
    (∃ t, exec (.st 1 0) (pre .z [(1, 0x14A7)] [] 0x3002) = .next t) ∧
    storeAddress (.st 1 0) (pre .z [(1, 0x14A7)] [] 0x3002) = some 0x3002 ∧
    storeAddress (.sti 1 1) (pre .z [] [(0x3003, 0x3002)] 0x3002) = some 0x3002 ∧
    storeAddress (.str 1 2 0) (pre .z [(2, 0x3002)] [] 0x3002) = some 0x3002 :=
  ⟨by decide, ⟨rfl, rfl, rfl⟩, by decide, ⟨_, rfl⟩, by decide, by decide, by decide⟩

/-- For CondIsWrittenAndReadOnlyAsListed, PcIsWrittenOnlyByControlTransfer, RegistersKeptButDestinations,
MemoryKeptButStoresAndPolls, RunIsWrittenOnlyByHaltAndIllegal and OutputOnlyFromTraps: every instruction executes from
every state, and each side condition has an instruction that meets it. -/
theorem witness_frames :
    (∀ i s, ∃ t, exec i s = .next t) ∧ flagDest (.st 1 0) = none ∧ flagDest (.ld 1 0) = some 1 ∧
    flagDest .trapGetc = some 0 ∧ (withInput [0x41] State.reset).input ≠ [] ∧ writesPc .trapGetc = false ∧
    writesLink (.jsr 0) = true ∧ (5 : Reg) ∉ writtenRegs .trapIn ∧ readsMemory (.st 1 0) = false ∧
    storeAddress (.st 1 0) State.reset ≠ some 0x0000 ∧ sendsOutput (.st 1 0) = false :=
  ⟨exec_answers_next, by decide, by decide, by decide, by decide, by decide, by decide, by decide, by decide, by decide,
    by decide⟩

theorem witness_PcIsWrittenOnlyByControlTransfer :
    (State.reset.setInFlight (some .getc)).inFlight = some .getc ∧
    ∃ t, step (State.reset.setInFlight (some .getc)) = .next t := ⟨rfl, _, rfl⟩

theorem witness_OutputIsWriteOnly :
    (∃ t, core.run 1 State.reset = .next t) ∧ ∃ r, core.run 1 (State.reset.setRun .halted) = .fault r :=
  ⟨⟨_, rfl⟩, ⟨_, rfl⟩⟩

/-- Loadable images of two and three bytes before each kind of failing image, and even-length files. -/
theorem witness_LaunchWithoutAnImageStartsNothing :
    (∀ image ∈ ([some [0x30, 0x00], some [0x30, 0x00, 0x12]] : List Image),
      ∃ bytes, image = some bytes ∧ 2 ≤ bytes.length) ∧
    ([some [0x30, 0x00]] : List Image) ≠ [] ∧
    launch Config.default [some [0x30, 0x00], some [0x30, 0x00, 0x12], some [0x30]] = .loadError 2 ∧
    ([] : List Byte).length % 2 = 0 ∧ ([0x30, 0x00, 0x12, 0x34] : List Byte).length % 2 = 0 := by
  refine ⟨fun image h => ?_, by decide, by decide, by decide, by decide⟩
  simp only [List.mem_cons, List.not_mem_nil, or_false] at h
  rcases h with rfl | rfl
  · exact ⟨_, rfl, by decide⟩
  · exact ⟨_, rfl, by decide⟩

theorem reset_inv : Inv State.reset := ⟨rfl, trivial, trivial⟩

theorem witness_EveryStepKeepsTheInvariant : Inv State.reset ∧ ∃ t, step State.reset = .next t :=
  ⟨reset_inv, _, rfl⟩

/-- A launch of one image, a step of it, and input that arrives. -/
theorem witness_ReachableStatesAreSound : ∃ s, Reachable s ∧ s.input = [0x41] ∧ s.pc = 0x3001 := by
  have h : launch Config.default [some [0x30, 0x00, 0x12, 0x83]] =
      .started (State.powerOn Config.default [(0x3000, 0x1283)]) := by decide
  obtain ⟨t, ht, hi, hp⟩ : ∃ t, step (State.powerOn Config.default [(0x3000, 0x1283)]) = .next t ∧ t.input = [] ∧
      t.pc = 0x3001 := ⟨_, rfl, rfl, rfl⟩
  exact ⟨t.deliver [0x41], .deliver _ (.step (.launched h) ht), by simp [hi], by simp [hp]⟩

end Sys2Proof.Tests
end

section
/-! PROOFS. The two widenings of R14: `sext` of a field and `zext16` of a byte, by their values. -/

namespace Sys2Proof.Machine

/-- Sign extension adds the ones from bit n up to bit 15, worth 2^16 - 2^n, when the field's top bit is set (R14). -/
theorem sext_toNat {n : Nat} (hn : n ≤ 16) (v : BitVec n) :
    (sext v).toNat = v.toNat + if v.msb then 2 ^ 16 - 2 ^ n else 0 := by
  rw [sext, BitVec.toNat_signExtend, BitVec.toNat_setWidth_of_le hn]

@[simp] theorem zext16_toNat (b : Byte) : (zext16 b).toNat = b.toNat :=
  BitVec.toNat_setWidth_of_le (by decide)

/-- Settles O6, by the two values of the field's top bit in `sext_toNat`. -/
theorem signExtensionReplicatesTheSignBit : Obligations.SignExtensionReplicatesTheSignBit := by
  refine ⟨fun n _ hn v => ?_, zext16_toNat⟩
  rw [← BitVec.msb_eq_getLsbD_last, sext_toNat hn]
  constructor <;> intro hmsb
  · rw [hmsb, if_neg Bool.false_ne_true, Nat.add_zero]
  · rw [if_pos hmsb]
    have hpow : 2 ^ n ≤ 2 ^ 16 := Nat.pow_le_pow_right Nat.two_pos hn
    omega

end Sys2Proof.Machine
end

section
/-! PROOFS. SetCC (R37): the flag of a word is the sign of its two's-complement value. -/

namespace Sys2Proof.Machine

/-- Bit 15 is the sign bit, and only the word 0 has the value 0 (R37). -/
theorem condOf_eq_sign (v : Word) :
    condOf v = if v.toInt = 0 then .z else if v.toInt < 0 then .n else .p := by
  have hzero : v.toInt = 0 ↔ v = 0 := by
    rw [← BitVec.toInt_inj]
    rfl
  have hsign : v.toInt < 0 ↔ v.getLsbD 15 = true := by
    rw [← decide_eq_true_iff (p := v.toInt < 0), ← BitVec.msb_eq_toInt, BitVec.msb_eq_getLsbD_last]
  simp only [condOf, hzero, hsign]

theorem condOf_zero : condOf 0 = .z := rfl

theorem condOf_of_bit15 {v : Word} (hv : v ≠ 0) (hbit : v.getLsbD 15 = true) : condOf v = .n := by
  rw [condOf, if_neg hv, if_pos hbit]

theorem condOf_of_not_bit15 {v : Word} (hv : v ≠ 0) (hbit : v.getLsbD 15 = false) : condOf v = .p := by
  rw [condOf, if_neg hv, hbit, if_neg Bool.false_ne_true]

/-- Settles O7, by the three signs in `condOf_eq_sign` and the three branches of `condOf`. -/
theorem setCCFollowsTheSign : Obligations.SetCCFollowsTheSign := by
  refine ⟨fun v => ?_, fun s v => ⟨fun hv => ?_, fun hv hbit => ?_, fun hv hbit => ?_⟩⟩
  · rw [condOf_eq_sign]
    obtain hneg | hzero | hpos := lt_trichotomy v.toInt 0
    · simp [hneg, hneg.ne, hneg.le]
    · simp [hzero]
    · simp [hpos, hpos.ne', hpos.not_gt]
  · rw [State.setCC, hv, condOf_zero]
  · rw [State.setCC, condOf_of_bit15 hv hbit]
  · rw [State.setCC, condOf_of_not_bit15 hv hbit]

end Sys2Proof.Machine
end

section
/-! PROOFS. Who writes and who reads COND (R39). An instruction run from s with COND replaced by an arbitrary c shows
both: either c is gone from the result, which SetCC wrote, or c stands there as it was; nothing else depends on it. -/

namespace Sys2Proof.Machine

/-- COND <- c, and nothing else. -/
def State.setCond (s : State) (c : Cond) : State := { s with cond := c }

section setCond
variable (s : State) (c : Cond)

@[simp] theorem State.setCond_cond : (s.setCond c).cond = c := rfl
@[simp] theorem State.setCond_self : s.setCond s.cond = s := rfl
@[simp] theorem State.setCond_cfg : (s.setCond c).cfg = s.cfg := rfl
@[simp] theorem State.setCond_raw (a : Word) : (s.setCond c).raw a = s.raw a := rfl
@[simp] theorem pcRelative9_setCond (o : BitVec 9) : pcRelative9 (s.setCond c) o = pcRelative9 s o := rfl
@[simp] theorem baseOffset_setCond (b : Reg) (o : BitVec 6) : baseOffset (s.setCond c) b o = baseOffset s b o := rfl
@[simp] theorem State.setCond_writeResult (d : Reg) (v : Word) :
    (s.setCond c).writeResult d v = s.writeResult d v := rfl

@[simp] theorem State.poll_setCond : (s.setCond c).poll = s.poll.setCond c := by
  obtain ⟨ha, h⟩ | ⟨b, rest, ha, hi, h⟩ := s.poll_cases
  · rw [h, State.poll_of_not_ready (s := s.setCond c) ha]
    rfl
  · rw [h, State.poll_of_ready (s := s.setCond c) ha hi]
    rfl

@[simp] theorem State.afterRead_setCond (a : Word) : (s.setCond c).afterRead a = (s.afterRead a).setCond c := by
  by_cases h : a = s.cfg.kbsrAddr
  · subst h
    rw [State.afterRead_kbsr, ← State.poll_setCond]
    exact State.afterRead_kbsr (s.setCond c)
  · rw [State.afterRead_of_ne h, State.afterRead_of_ne (s := s.setCond c) h]

@[simp] theorem memRead_setCond (a : Word) :
    memRead a (s.setCond c) = ((memRead a s).1, (memRead a s).2.setCond c) := by
  simp [memRead]

@[simp] theorem loadFrom_setCond (d : Reg) (a : Word) : loadFrom d a (s.setCond c) = loadFrom d a s := by
  simp only [loadFrom, memRead_setCond, State.setCond_writeResult]

end setCond

/-! ### The two trap routines that wait for a byte -/

theorem exec_trapGetc_of_input {s : State} {b : Byte} {rest : List Byte} (h : s.input = b :: rest) :
    exec .trapGetc s = .next (finishGetc b ((s.link.askChar.setInput rest).setInFlight none)) :=
  congrArg Host.Outcome.next (awaitByte_of_input .getc finishGetc h)

theorem exec_trapGetc_of_no_input {s : State} (h : s.input = []) :
    exec .trapGetc s = .next (s.link.askChar.setInFlight (some .getc)) :=
  congrArg Host.Outcome.next (awaitByte_of_no_input .getc finishGetc h)

theorem exec_trapIn_of_input {s : State} {b : Byte} {rest : List Byte} (h : s.input = b :: rest) :
    exec .trapIn s =
      .next (finishIn b (((s.link.sendBytes s.cfg.inPrompt).askChar.setInput rest).setInFlight none)) :=
  congrArg Host.Outcome.next (awaitByte_of_input .inChar finishIn h)

theorem exec_trapIn_of_no_input {s : State} (h : s.input = []) :
    exec .trapIn s = .next ((s.link.sendBytes s.cfg.inPrompt).askChar.setInFlight (some .inChar)) :=
  congrArg Host.Outcome.next (awaitByte_of_no_input .inChar finishIn h)

/-! ### The flag-defining instructions -/

theorem State.writeResult_cond_eq (s : State) (d : Reg) (v : Word) :
    (s.writeResult d v).cond = condOf ((s.writeResult d v).reg d) := by
  simp

/-- A flag-defining instruction ends in the write of its result (R39); GETC and IN do once their byte is there. -/
theorem exec_eq_writeResult_of_flagDest {i : Instr} {d : Reg} {s : State} (hd : flagDest i = some d)
    (hin : i = .trapGetc ∨ i = .trapIn → s.input ≠ []) :
    ∃ (u : State) (v : Word), exec i s = .next (u.writeResult d v) := by
  cases i with
  | addReg | addImm | andReg | andImm | notReg | lea | ld | ldi | ldr =>
    cases hd
    exact ⟨_, _, rfl⟩
  | trapGetc =>
    cases hd
    obtain ⟨b, rest, hb⟩ := List.exists_cons_of_ne_nil (hin (.inl rfl))
    exact ⟨_, _, exec_trapGetc_of_input hb⟩
  | trapIn =>
    cases hd
    obtain ⟨b, rest, hb⟩ := List.exists_cons_of_ne_nil (hin (.inr rfl))
    exact ⟨_, _, exec_trapIn_of_input hb⟩
  | _ => cases hd

/-- What that write leaves does not depend on the COND it overwrites. -/
theorem exec_setCond_of_flagDest {i : Instr} {d : Reg} {s : State} (hd : flagDest i = some d)
    (hin : i = .trapGetc ∨ i = .trapIn → s.input ≠ []) (c : Cond) : exec i (s.setCond c) = exec i s := by
  cases i with
  | addReg | addImm | andReg | andImm | notReg | lea => rfl
  | ld | ldi | ldr =>
    simp only [exec, execLd, execLdi, execLdr, pcRelative9_setCond, baseOffset_setCond, memRead_setCond,
      loadFrom_setCond]
  | trapGetc =>
    obtain ⟨b, rest, hb⟩ := List.exists_cons_of_ne_nil (hin (.inl rfl))
    rw [exec_trapGetc_of_input hb, exec_trapGetc_of_input (s := s.setCond c) hb]
    rfl
  | trapIn =>
    obtain ⟨b, rest, hb⟩ := List.exists_cons_of_ne_nil (hin (.inr rfl))
    rw [exec_trapIn_of_input hb, exec_trapIn_of_input (s := s.setCond c) hb]
    rfl
  | _ => cases hd

/-! ### The instructions that leave COND as it was -/

/-- GETC and IN, while they wait, carry COND through. -/
theorem exec_setCond_of_waiting {i : Instr} {s t : State} (hi : i = .trapGetc ∨ i = .trapIn) (hin : s.input = [])
    (h : exec i s = .next t) (c : Cond) : exec i (s.setCond c) = .next (t.setCond c) := by
  obtain rfl | rfl := hi
  · rw [exec_trapGetc_of_no_input hin] at h
    cases h
    exact exec_trapGetc_of_no_input (s := s.setCond c) hin
  · rw [exec_trapIn_of_no_input hin] at h
    cases h
    exact exec_trapIn_of_no_input (s := s.setCond c) hin

/-- An instruction that neither defines the flags nor tests them carries COND through (R39). -/
theorem exec_setCond_of_no_flagDest {i : Instr} {s t : State} (hd : flagDest i = none) (hbr : ∀ m o, i ≠ .br m o)
    (h : exec i s = .next t) (c : Cond) : exec i (s.setCond c) = .next (t.setCond c) := by
  cases i with
  | br m o => exact absurd rfl (hbr m o)
  | jsrr b =>
    simp only [exec, execJsrr, State.setCond_cfg] at h ⊢
    cases ho : s.cfg.jsrrLinkOrder <;>
    · rw [ho] at h
      cases h
      rfl
  | sti r o =>
    cases h
    simp only [exec, execSti, pcRelative9_setCond, memRead_setCond]
    rfl
  | jmp | jsr | st | str | trapOut | trapPuts | trapPutsp | trapHalt | trapUnknown | rtiSlot | reservedSlot =>
    cases h
    rfl
  | _ => cases hd

theorem exec_br_cond {m : BitVec 3} {o : BitVec 9} {s t : State} (h : exec (.br m o) s = .next t) :
    t.cond = s.cond := by
  simp only [exec, execBr] at h
  cases h
  split <;> rfl

theorem exec_cond_of_no_flagDest {i : Instr} {s t : State} (hd : flagDest i = none) (h : exec i s = .next t) :
    t.cond = s.cond := by
  by_cases hbr : ∃ m o, i = .br m o
  · obtain ⟨m, o, rfl⟩ := hbr
    exact exec_br_cond h
  · have hcarry := exec_setCond_of_no_flagDest hd (fun m o he => hbr ⟨m, o, he⟩) h s.cond
    rw [State.setCond_self, h] at hcarry
    injection hcarry with ht
    rw [ht, State.setCond_cond]

/-- Whatever COND holds before any instruction but BR, it can show in the COND it leaves and nowhere else. -/
theorem exec_setCond {i : Instr} {s t : State} (hbr : ∀ m o, i ≠ .br m o) (h : exec i s = .next t) (c : Cond) :
    ∃ c', exec i (s.setCond c) = .next (t.setCond c') := by
  cases hd : flagDest i with
  | none => exact ⟨c, exec_setCond_of_no_flagDest hd hbr h c⟩
  | some d =>
    by_cases hwait : (i = .trapGetc ∨ i = .trapIn) ∧ s.input = []
    · obtain ⟨hi, hin⟩ := hwait
      exact ⟨c, exec_setCond_of_waiting hi hin h c⟩
    · refine ⟨t.cond, ?_⟩
      rw [exec_setCond_of_flagDest hd (fun hi hin => hwait ⟨hi, hin⟩), h, State.setCond_self]

/-- Settles O48: the writes by `exec_cond_of_no_flagDest` and `exec_eq_writeResult_of_flagDest`, the reads by
`exec_setCond`. -/
theorem condIsWrittenAndReadOnlyAsListed : Obligations.CondIsWrittenAndReadOnlyAsListed := by
  refine ⟨fun i s t h => ⟨fun hd => exec_cond_of_no_flagDest hd h, fun d hd hin => ?_⟩,
    fun i s t t' c hbr h h' => ?_⟩
  · obtain ⟨u, v, hw⟩ := exec_eq_writeResult_of_flagDest hd hin
    rw [h] at hw
    cases hw
    exact u.writeResult_cond_eq d v
  · obtain ⟨c', hc⟩ := exec_setCond hbr h c
    cases h'.symm.trans hc
    exact t.setCond_self

end Sys2Proof.Machine
end

section
/-! PROOFS. MemRead off the keyboard-status word and MemWrite (R56, R58): a plain read, a plain store. -/

namespace Sys2Proof.Machine

/-- Off KBSR_ADDR a read makes no poll (R56). -/
theorem memRead_of_ne {a : Word} {s : State} (h : a ≠ s.cfg.kbsrAddr) : memRead a s = (s.raw a, s) := by
  rw [memRead, State.afterRead_of_ne h]

/-- Settles O8, by `memRead_of_ne`. -/
theorem memReadElsewhereHasNoSideEffect : Obligations.MemReadElsewhereHasNoSideEffect :=
  fun _ _ h => memRead_of_ne h

/-- The stored word is read back from canonical memory (R58). -/
theorem State.memWrite_raw_same {s : State} (h : s.mem.wf = true) (a v : Word) : (s.memWrite a v).raw a = v := by
  rw [State.memWrite_raw h, if_pos rfl]

theorem State.memWrite_memKeptBut (s : State) (a v : Word) : MemKeptBut a s (s.memWrite a v) :=
  fun _ hb => s.memWrite_raw_ne hb v

theorem State.memWrite_regsKept (s : State) (a v : Word) : RegsKept [] s (s.memWrite a v) :=
  fun r _ => s.memWrite_reg a v r

theorem State.memWrite_consoleKept (s : State) (a v : Word) : ConsoleKept s (s.memWrite a v) :=
  ⟨s.memWrite_input a v, s.memWrite_polls a v, s.memWrite_pollCount a v, s.memWrite_events a v⟩

theorem State.memWrite_controlKept (s : State) (a v : Word) : ControlKept s (s.memWrite a v) :=
  ⟨s.memWrite_run a v, s.memWrite_inFlight a v, s.memWrite_hostStop a v, s.memWrite_cfg a v⟩

/-- All a store does and all it leaves alone (R58). -/
theorem State.memWrite_storeResult (s : State) (a v : Word) : StoreResult a v s (s.memWrite a v) :=
  ⟨fun h => State.memWrite_raw_same h a v, s.memWrite_memKeptBut a v, s.memWrite_regsKept a v, s.memWrite_cond a v,
    s.memWrite_pc a v, s.memWrite_consoleKept a v, s.memWrite_controlKept a v⟩

/-- Settles O11, by `State.memWrite_storeResult`. -/
theorem memWriteStoresOneWord : Obligations.MemWriteStoresOneWord :=
  fun a v s => s.memWrite_storeResult a v

end Sys2Proof.Machine
end

section
/-! PROOFS. Fetch and execute (R101): the state executed in is the one the read leaves, with PC incremented. -/

namespace Sys2Proof.Machine

/-- The increment counts from the PC before the fetch, since a poll leaves PC alone (R55, R101). -/
theorem fetch_eq_memRead (s : State) :
    fetch s = ((memRead s.pc s).1, { (memRead s.pc s).2 with pc := s.pc + 1 }) := by
  rw [fetch, State.incPc, memRead_snd, State.afterRead_pc, State.setPc]

theorem fetch_of_ne {s : State} (h : s.pc ≠ s.cfg.kbsrAddr) :
    fetch s = (s.raw s.pc, { s with pc := s.pc + 1 }) := by
  rw [fetch_eq_memRead, memRead_of_ne h]

theorem step_of_about {s : State} {w : Word} (h : s.About w) :
    step s = exec (decodeWord w) { s with pc := s.pc + 1 } := by
  obtain ⟨hfetching, hpc, hword⟩ := h
  rw [step_of_fetching hfetching, fetch_of_ne hpc, hword]

/-- Settles O41, by `fetch_eq_memRead` for every fetch and `step_of_about` for one that makes no poll. -/
theorem stepRunsTheDecodedInstruction : Obligations.StepRunsTheDecodedInstruction := by
  refine ⟨fun s h => ?_, fun _ _ => step_of_about⟩
  rw [step_of_fetching h, fetch_eq_memRead]

end Sys2Proof.Machine
end

section
/-! PROOFS. ADD, AND and NOT (R110 to R114): each reads its word's fields by opcode and mode bit, and each is one
`writeResult`, whose whole effect is stated once. -/

namespace Sys2Proof.Machine

/-! ### The write of a result, with its frame (R31, R39) -/

theorem State.writeResult_reg_same (s : State) (d : Reg) (v : Word) : (s.writeResult d v).reg d = v := by
  rw [State.writeResult_reg, if_pos rfl]

theorem State.writeResult_regsKept (s : State) (d : Reg) (v : Word) : RegsKept [d] s (s.writeResult d v) :=
  fun r hr => by rw [State.writeResult_reg, if_neg (List.ne_of_not_mem_cons hr)]

theorem State.writeResult_memKept (s : State) (d : Reg) (v : Word) : MemKept s (s.writeResult d v) :=
  fun a => s.writeResult_raw d v a

theorem State.writeResult_consoleKept (s : State) (d : Reg) (v : Word) : ConsoleKept s (s.writeResult d v) :=
  ⟨s.writeResult_input d v, s.writeResult_polls d v, s.writeResult_pollCount d v, s.writeResult_events d v⟩

theorem State.writeResult_controlKept (s : State) (d : Reg) (v : Word) : ControlKept s (s.writeResult d v) :=
  ⟨s.writeResult_run d v, s.writeResult_inFlight d v, s.writeResult_hostStop d v, s.writeResult_cfg d v⟩

/-- All the write of a result does and all it leaves alone (R39). -/
theorem State.writeResult_registerResult (s : State) (d : Reg) (v : Word) :
    RegisterResult d v s (s.writeResult d v) :=
  ⟨s.writeResult_reg_same d v, s.writeResult_cond d v, s.writeResult_regsKept d v, s.writeResult_pc d v,
    s.writeResult_memKept d v, s.writeResult_consoleKept d v, s.writeResult_controlKept d v⟩

/-- An instruction that answers the write of a result completes, with that result and nothing else. -/
theorem exists_registerResult_of_writeResult {i : Instr} {s : State} {d : Reg} {v : Word}
    (h : exec i s = .next (s.writeResult d v)) : ∃ t, exec i s = .next t ∧ RegisterResult d v s t :=
  ⟨_, h, s.writeResult_registerResult d v⟩

/-! ### Which form a word of ADD or AND is: bit 5 (R84, R95) -/

section byMode
variable {w : Word}

theorem decodeWord_of_1_register (hop : opcodeOf w = 0x1) (hmode : modeBit w = false) :
    decodeWord w = .addReg (fieldA w) (fieldB w) (fieldC w) := by
  rw [decodeWord_of_1 hop, hmode, if_neg Bool.false_ne_true]

theorem decodeWord_of_1_immediate (hop : opcodeOf w = 0x1) (hmode : modeBit w = true) :
    decodeWord w = .addImm (fieldA w) (fieldB w) (imm5Of w) := by
  rw [decodeWord_of_1 hop, if_pos hmode]

theorem decodeWord_of_5_register (hop : opcodeOf w = 0x5) (hmode : modeBit w = false) :
    decodeWord w = .andReg (fieldA w) (fieldB w) (fieldC w) := by
  rw [decodeWord_of_5 hop, hmode, if_neg Bool.false_ne_true]

theorem decodeWord_of_5_immediate (hop : opcodeOf w = 0x5) (hmode : modeBit w = true) :
    decodeWord w = .andImm (fieldA w) (fieldB w) (imm5Of w) := by
  rw [decodeWord_of_5 hop, if_pos hmode]

end byMode

/-! ### The five instructions -/

theorem exec_addReg (d a b : Reg) (s : State) :
    exec (.addReg d a b) s = .next (s.writeResult d (s.reg a + s.reg b)) := rfl

theorem exec_addImm (d a : Reg) (i : BitVec 5) (s : State) :
    exec (.addImm d a i) s = .next (s.writeResult d (s.reg a + sext i)) := rfl

theorem exec_andReg (d a b : Reg) (s : State) :
    exec (.andReg d a b) s = .next (s.writeResult d (s.reg a &&& s.reg b)) := rfl

theorem exec_andImm (d a : Reg) (i : BitVec 5) (s : State) :
    exec (.andImm d a i) s = .next (s.writeResult d (s.reg a &&& sext i)) := rfl

/-- The model complements bit by bit; the result is 0xFFFF minus the word, since the subtraction never borrows
(R114). -/
theorem exec_notReg (d a : Reg) (s : State) :
    exec (.notReg d a) s = .next (s.writeResult d (0xFFFF - s.reg a)) := by
  have hsub : 0xFFFF - s.reg a = ~~~ s.reg a := BitVec.allOnes_sub_eq_not (s.reg a)
  rw [hsub, exec, execNotReg]

/-- Settles O14, by `decodeWord_of_1_register` and `exec_addReg`. -/
theorem addRegisterForm : Obligations.AddRegisterForm :=
  ⟨fun _ => decodeWord_of_1_register,
    fun d a b s => exists_registerResult_of_writeResult (exec_addReg d a b s)⟩

/-- Settles O15, by `decodeWord_of_1_immediate` and `exec_addImm`. -/
theorem addImmediateForm : Obligations.AddImmediateForm :=
  ⟨fun _ => decodeWord_of_1_immediate,
    fun d a i s => exists_registerResult_of_writeResult (exec_addImm d a i s)⟩

/-- Settles O16, by `decodeWord_of_5_register` and `exec_andReg`. -/
theorem andRegisterForm : Obligations.AndRegisterForm :=
  ⟨fun _ => decodeWord_of_5_register,
    fun d a b s => exists_registerResult_of_writeResult (exec_andReg d a b s)⟩

/-- Settles O17, by `decodeWord_of_5_immediate` and `exec_andImm`. -/
theorem andImmediateForm : Obligations.AndImmediateForm :=
  ⟨fun _ => decodeWord_of_5_immediate,
    fun d a i s => exists_registerResult_of_writeResult (exec_andImm d a i s)⟩

/-- Settles O18, by `decodeWord_of_9` and `exec_notReg`. -/
theorem notComplements : Obligations.NotComplements :=
  ⟨fun _ => decodeWord_of_9,
    fun d a s => exists_registerResult_of_writeResult (exec_notReg d a s)⟩

end Sys2Proof.Machine
end

section
/-! PROOFS. JMP and JSR (R122 to R124): a write of PC, in JSR after the link write; the whole effect of each of the
two forms is stated once. -/

namespace Sys2Proof.Machine

/-! ### The jump and the call, with their frames (R33, R36) -/

/-- All a jump does and all it leaves alone (R122). -/
theorem State.setPc_jumpResult (s : State) (target : Word) : JumpResult target s (s.setPc target) :=
  ⟨s.setPc_pc target, fun r _ => s.setPc_reg target r, s.setPc_cond target, fun a => s.setPc_raw target a,
    ⟨s.setPc_input target, s.setPc_polls target, s.setPc_pollCount target, s.setPc_events target⟩,
    ⟨s.setPc_run target, s.setPc_inFlight target, s.setPc_hostStop target, s.setPc_cfg target⟩⟩

/-- A call is the jump made after the link write: the jump's frame, and of the registers R7 alone is written (R33). -/
theorem State.link_setPc_callResult (s : State) (target : Word) : CallResult target s (s.link.setPc target) := by
  obtain ⟨hpc, hregs, hcond, hmem, hconsole, hcontrol⟩ := s.link.setPc_jumpResult target
  have hreg (r : Reg) : (s.link.setPc target).reg r = if r = linkReg then s.pc else s.reg r :=
    (hregs r List.not_mem_nil).trans (s.link_reg r)
  exact ⟨hpc, (hreg 7).trans (if_pos rfl), fun r hr => (hreg r).trans (if_neg (List.ne_of_not_mem_cons hr)), hcond,
    hmem, hconsole, hcontrol⟩

/-! ### The two instructions -/

/-- RET is the word of JMP with base R7 (R123). -/
theorem decodeWord_ret : decodeWord 0xC1C0 = .jmp 7 :=
  decodeWord_of_C (by decide)

/-- The long bit makes a word of opcode 0100 a JSR (R91, R95). -/
theorem decodeWord_of_4_long {w : Word} (hop : opcodeOf w = 0x4) (hlong : longBit w = true) :
    decodeWord w = .jsr (offset11Of w) := by
  rw [decodeWord_of_4 hop, if_pos hlong]

theorem exec_jmp (b : Reg) (s : State) : exec (.jmp b) s = .next (s.setPc (s.reg b)) := rfl

theorem exec_jsr (o : BitVec 11) (s : State) : exec (.jsr o) s = .next (s.link.setPc (s.pc + sext o)) := rfl

/-- Settles O21, by `decodeWord_of_C`, `decodeWord_ret` and `State.setPc_jumpResult`. -/
theorem jumpGoesToTheBase : Obligations.JumpGoesToTheBase :=
  ⟨fun _ => decodeWord_of_C, decodeWord_ret,
    fun b s => ⟨_, exec_jmp b s, s.setPc_jumpResult (s.reg b)⟩⟩

/-- Settles O22, by `decodeWord_of_4_long` and `State.link_setPc_callResult`. -/
theorem jsrLinksAndJumps : Obligations.JsrLinksAndJumps :=
  ⟨fun _ => decodeWord_of_4_long,
    fun o s => ⟨_, exec_jsr o s, s.link_setPc_callResult (s.pc + sext o)⟩⟩

end Sys2Proof.Machine
end

section
/-! PROOFS. LD, LDI, LDR and LEA, ST, STI and STR (R130 to R136): one load and one store, each with its whole effect
stated once; LDI and STI make theirs in the state a pointer read leaves, so the frame of MemRead is put before it. -/

namespace Sys2Proof.Machine

/-! ### The frame of MemRead (R55) -/

theorem RegsKept.trans {but : List Reg} {s u t : State} (h : RegsKept but s u) (h' : RegsKept but u t) :
    RegsKept but s t :=
  fun r hr => (h' r hr).trans (h r hr)

theorem ControlKept.trans {s u t : State} (h : ControlKept s u) (h' : ControlKept u t) : ControlKept s t := by
  obtain ⟨hrun, hflight, hstop, hcfg⟩ := h
  obtain ⟨hrun', hflight', hstop', hcfg'⟩ := h'
  exact ⟨hrun'.trans hrun, hflight'.trans hflight, hstop'.trans hstop, hcfg'.trans hcfg⟩

theorem memRead_regsKept (but : List Reg) (a : Word) (s : State) : RegsKept but s (memRead a s).2 :=
  fun r _ => s.afterRead_reg a r

theorem memRead_controlKept (a : Word) (s : State) : ControlKept s (memRead a s).2 :=
  ⟨s.afterRead_run a, s.afterRead_inFlight a, s.afterRead_hostStop a, s.afterRead_cfg a⟩

/-! ### The load (R130) -/

/-- All a load does and all it leaves alone: MemRead, then the write of its word as a result. -/
theorem loadFrom_loadResult (d : Reg) (a : Word) (s : State) : LoadResult d a s (loadFrom d a s) := by
  obtain ⟨hreg, hcond, hregs, hpc, hmem, hconsole, hcontrol⟩ :=
    (memRead a s).2.writeResult_registerResult d (memRead a s).1
  refine ⟨hreg, hcond, (memRead_regsKept [d] a s).trans hregs, hpc.trans (s.afterRead_pc a), hmem, hconsole,
    (memRead_controlKept a s).trans hcontrol, fun ha => ?_,
    fun b hsr hdr => (hmem b).trans (s.afterRead_raw_other a hsr hdr)⟩
  rw [loadFrom, memRead_of_ne ha]
  exact ⟨s.writeResult_memKept d (s.raw a), s.writeResult_consoleKept d (s.raw a)⟩

/-- Off KBSR_ADDR a load gives the stored word and has no side effect (R56). -/
theorem LoadResult.of_ne {d : Reg} {a : Word} {s t : State} (h : LoadResult d a s t) (ha : a ≠ s.cfg.kbsrAddr) :
    t.reg d = s.raw a ∧ MemKept s t ∧ ConsoleKept s t := by
  obtain ⟨hreg, -, -, -, -, -, -, hplain, -⟩ := h
  rw [memRead_of_ne ha] at hreg
  exact ⟨hreg, hplain ha⟩

/-- What a pointer read and a load together leave alone (R131). -/
theorem LoadResult.frame_of_memRead {d : Reg} {p a : Word} {s t : State} (h : LoadResult d a (memRead p s).2 t) :
    RegsKept [d] s t ∧ t.pc = s.pc ∧ ControlKept s t ∧
    ∀ b, b ≠ s.cfg.kbsrAddr → b ≠ s.cfg.kbdrAddr → t.raw b = s.raw b := by
  obtain ⟨-, -, hregs, hpc, -, -, hcontrol, -, hwords⟩ := h
  rw [memRead_snd, State.afterRead_cfg] at hwords
  exact ⟨(memRead_regsKept [d] p s).trans hregs, hpc.trans (s.afterRead_pc p),
    (memRead_controlKept p s).trans hcontrol,
    fun b hsr hdr => (hwords b hsr hdr).trans (s.afterRead_raw_other p hsr hdr)⟩

/-- Where neither the pointer nor the word it points to stands at KBSR_ADDR, nothing is polled (R131). -/
theorem LoadResult.of_pointer_ne {d : Reg} {p : Word} {s t : State}
    (h : LoadResult d (memRead p s).1 (memRead p s).2 t) (hp : p ≠ s.cfg.kbsrAddr)
    (ha : s.raw p ≠ s.cfg.kbsrAddr) : t.reg d = s.raw (s.raw p) ∧ MemKept s t ∧ ConsoleKept s t := by
  rw [memRead_of_ne hp] at h
  exact h.of_ne ha

/-! ### The store through a pointer (R135) -/

/-- What a pointer read and a store together leave alone, the words of memory aside. -/
theorem StoreResult.frame_of_memRead {p a v : Word} {s t : State} (h : StoreResult a v (memRead p s).2 t) :
    RegsKept [] s t ∧ t.cond = s.cond ∧ t.pc = s.pc ∧ ControlKept s t := by
  obtain ⟨-, -, hregs, hcond, hpc, -, hcontrol⟩ := h
  exact ⟨(memRead_regsKept [] p s).trans hregs, hcond.trans (s.afterRead_cond p), hpc.trans (s.afterRead_pc p),
    (memRead_controlKept p s).trans hcontrol⟩

/-- With the pointer off KBSR_ADDR the store is the whole effect. -/
theorem StoreResult.of_pointer_ne {p v : Word} {s t : State} (h : StoreResult (memRead p s).1 v (memRead p s).2 t)
    (hp : p ≠ s.cfg.kbsrAddr) : StoreResult (s.raw p) v s t := by
  rwa [memRead_of_ne hp] at h

/-! ### The seven instructions -/

theorem exec_ld (d : Reg) (o : BitVec 9) (s : State) :
    exec (.ld d o) s = .next (loadFrom d (s.pc + sext o) s) := rfl

theorem exec_ldi (d : Reg) (o : BitVec 9) (s : State) :
    exec (.ldi d o) s =
      .next (loadFrom d (memRead (s.pc + sext o) s).1 (memRead (s.pc + sext o) s).2) := rfl

theorem exec_ldr (d b : Reg) (o : BitVec 6) (s : State) :
    exec (.ldr d b o) s = .next (loadFrom d (s.reg b + sext o) s) := rfl

theorem exec_lea (d : Reg) (o : BitVec 9) (s : State) :
    exec (.lea d o) s = .next (s.writeResult d (s.pc + sext o)) := rfl

theorem exec_st (r : Reg) (o : BitVec 9) (s : State) :
    exec (.st r o) s = .next (s.memWrite (s.pc + sext o) (s.reg r)) := rfl

theorem exec_sti (r : Reg) (o : BitVec 9) (s : State) :
    exec (.sti r o) s =
      .next ((memRead (s.pc + sext o) s).2.memWrite (memRead (s.pc + sext o) s).1 (s.reg r)) := rfl

theorem exec_str (r b : Reg) (o : BitVec 6) (s : State) :
    exec (.str r b o) s = .next (s.memWrite (s.reg b + sext o) (s.reg r)) := rfl

/-- Settles O24, by `decodeWord_of_2` and `loadFrom_loadResult`. -/
theorem loadPcRelative : Obligations.LoadPcRelative :=
  ⟨fun _ => decodeWord_of_2, fun d o s => ⟨_, exec_ld d o s, loadFrom_loadResult d (s.pc + sext o) s⟩⟩

/-- Settles O25, by `decodeWord_of_A` and `loadFrom_loadResult` in the state the pointer read leaves. -/
theorem loadIndirect : Obligations.LoadIndirect := by
  refine ⟨fun _ => decodeWord_of_A, fun d o s => ⟨_, exec_ldi d o s, ?_⟩⟩
  have hload := loadFrom_loadResult d (memRead (s.pc + sext o) s).1 (memRead (s.pc + sext o) s).2
  obtain ⟨hregs, hpc, hcontrol, hwords⟩ := hload.frame_of_memRead
  exact ⟨hload, hregs, hpc, hcontrol, hwords, hload.of_pointer_ne⟩

/-- Settles O26, by `decodeWord_of_6` and `loadFrom_loadResult`. -/
theorem loadBaseOffset : Obligations.LoadBaseOffset :=
  ⟨fun _ => decodeWord_of_6, fun d b o s => ⟨_, exec_ldr d b o s, loadFrom_loadResult d (s.reg b + sext o) s⟩⟩

/-- Settles O27, by `decodeWord_of_E` and `exec_lea`. -/
theorem loadEffectiveAddress : Obligations.LoadEffectiveAddress :=
  ⟨fun _ => decodeWord_of_E, fun d o s => exists_registerResult_of_writeResult (exec_lea d o s)⟩

/-- Settles O28, by `decodeWord_of_3` and `State.memWrite_storeResult`. -/
theorem storePcRelative : Obligations.StorePcRelative :=
  ⟨fun _ => decodeWord_of_3,
    fun r o s => ⟨_, exec_st r o s, s.memWrite_storeResult (s.pc + sext o) (s.reg r)⟩⟩

/-- Settles O29, by `decodeWord_of_B` and `State.memWrite_storeResult` in the state the pointer read leaves. -/
theorem storeIndirect : Obligations.StoreIndirect := by
  refine ⟨fun _ => decodeWord_of_B, fun r o s => ⟨_, exec_sti r o s, ?_⟩⟩
  have hstore := (memRead (s.pc + sext o) s).2.memWrite_storeResult (memRead (s.pc + sext o) s).1 (s.reg r)
  obtain ⟨hregs, hcond, hpc, hcontrol⟩ := hstore.frame_of_memRead
  exact ⟨hstore, hregs, hcond, hpc, hcontrol, hstore.of_pointer_ne⟩

/-- Settles O30, by `decodeWord_of_7` and `State.memWrite_storeResult`. -/
theorem storeBaseOffset : Obligations.StoreBaseOffset :=
  ⟨fun _ => decodeWord_of_7,
    fun r b o s => ⟨_, exec_str r b o s, s.memWrite_storeResult (s.reg b + sext o) (s.reg r)⟩⟩

end Sys2Proof.Machine
end

section
/-! PROOFS. The round trip (R82, R99): the constructors' own lemmas of Laws/PerInstr.lean put together. -/

namespace Sys2Proof.Laws.RoundTrip

theorem statement_of_every_instr (i : Instr) : Statement i := by
  cases i with
  | addReg d a b => exact addReg d a b
  | addImm d a o => exact addImm d a o
  | andReg d a b => exact andReg d a b
  | andImm d a o => exact andImm d a o
  | notReg d a => exact notReg d a
  | br m o => exact br m o
  | jmp b => exact jmp b
  | jsr o => exact jsr o
  | jsrr b => exact jsrr b
  | ld d o => exact ld d o
  | ldi d o => exact ldi d o
  | ldr d b o => exact ldr d b o
  | lea d o => exact lea d o
  | st r o => exact st r o
  | sti r o => exact sti r o
  | str r b o => exact str r b o
  | trapGetc => exact trapGetc
  | trapOut => exact trapOut
  | trapPuts => exact trapPuts
  | trapIn => exact trapIn
  | trapPutsp => exact trapPutsp
  | trapHalt => exact trapHalt
  | trapUnknown v => exact trapUnknown v
  | rtiSlot => exact rtiSlot
  | reservedSlot => exact reservedSlot

/-- Settles O1, by the round trip of each constructor. -/
theorem decodeOfEncodeIsTheInstruction : Obligations.DecodeOfEncodeIsTheInstruction :=
  statement_of_every_instr

end Sys2Proof.Laws.RoundTrip
end

section
/-! PROOFS. Output is write-only (R70, R73): every operation, every instruction and every step carries requests made
earlier along and never looks at them, so two runs that differ only in those stay in lockstep. -/

namespace Sys2Proof.Machine

/-- The state with these console requests made before all of its own. -/
def State.withEarlier (earlier : List ConsoleEvent) (s : State) : State := { s with events := earlier ++ s.events }

/-- The outcome with the next state, if there is one, replaced by its image under `f`. -/
def mapNext (f : State → State) : Host.Outcome State Fault Refusal → Host.Outcome State Fault Refusal
  | .next s => .next (f s)
  | .fault r => .fault r
  | .refused r => .refused r

section withEarlier
variable (e : List ConsoleEvent) (s : State)

@[simp] theorem mapNext_next (f : State → State) : mapNext f (.next s) = .next (f s) := rfl

/-! ### What is read of a state -/

@[simp] theorem State.withEarlier_pc : (s.withEarlier e).pc = s.pc := rfl
@[simp] theorem State.withEarlier_cond : (s.withEarlier e).cond = s.cond := rfl
@[simp] theorem State.withEarlier_run : (s.withEarlier e).run = s.run := rfl
@[simp] theorem State.withEarlier_mem : (s.withEarlier e).mem = s.mem := rfl
@[simp] theorem State.withEarlier_inFlight : (s.withEarlier e).inFlight = s.inFlight := rfl
@[simp] theorem State.withEarlier_cfg : (s.withEarlier e).cfg = s.cfg := rfl
@[simp] theorem State.withEarlier_reg (r : Reg) : (s.withEarlier e).reg r = s.reg r := rfl
@[simp] theorem State.withEarlier_raw (a : Word) : (s.withEarlier e).raw a = s.raw a := rfl
@[simp] theorem State.withEarlier_stopTaken : (s.withEarlier e).stopTaken = s.stopTaken := rfl
@[simp] theorem pcRelative9_withEarlier (o : BitVec 9) : pcRelative9 (s.withEarlier e) o = pcRelative9 s o := rfl
@[simp] theorem baseOffset_withEarlier (b : Reg) (o : BitVec 6) :
    baseOffset (s.withEarlier e) b o = baseOffset s b o := rfl

/-! ### The updates -/

@[simp] theorem State.withEarlier_setPc (v : Word) : (s.withEarlier e).setPc v = (s.setPc v).withEarlier e := rfl
@[simp] theorem State.withEarlier_incPc : (s.withEarlier e).incPc = s.incPc.withEarlier e := rfl
@[simp] theorem State.withEarlier_link : (s.withEarlier e).link = s.link.withEarlier e := rfl
@[simp] theorem State.withEarlier_writeResult (d : Reg) (v : Word) :
    (s.withEarlier e).writeResult d v = (s.writeResult d v).withEarlier e := rfl
@[simp] theorem State.withEarlier_memWrite (a v : Word) :
    (s.withEarlier e).memWrite a v = (s.memWrite a v).withEarlier e := rfl
@[simp] theorem State.withEarlier_setInput (bs : List Byte) :
    (s.withEarlier e).setInput bs = (s.setInput bs).withEarlier e := rfl
@[simp] theorem State.withEarlier_setInFlight (r : Option Routine) :
    (s.withEarlier e).setInFlight r = (s.setInFlight r).withEarlier e := rfl
@[simp] theorem State.withEarlier_setRun (v : RunState) :
    (s.withEarlier e).setRun v = (s.setRun v).withEarlier e := rfl

/-! ### The requests: each goes after all earlier ones -/

@[simp] theorem State.withEarlier_sendBytes (bs : List Byte) :
    (s.withEarlier e).sendBytes bs = (s.sendBytes bs).withEarlier e := by
  simp [State.sendBytes, State.withEarlier]

@[simp] theorem State.withEarlier_askChar : (s.withEarlier e).askChar = s.askChar.withEarlier e := by
  simp [State.askChar, State.withEarlier]

@[simp] theorem State.withEarlier_askPoll : (s.withEarlier e).askPoll = s.askPoll.withEarlier e := by
  simp [State.askPoll, State.withEarlier, State.pollAnswer]

/-! ### The shared operations -/

@[simp] theorem State.withEarlier_poll : (s.withEarlier e).poll = s.poll.withEarlier e := by
  obtain ⟨ha, h⟩ | ⟨b, rest, ha, hi, h⟩ := s.poll_cases
  · rw [h, State.poll_of_not_ready (s := s.withEarlier e) ha]
    simp
  · rw [h, State.poll_of_ready (s := s.withEarlier e) ha hi]
    simp

@[simp] theorem State.withEarlier_afterRead (a : Word) :
    (s.withEarlier e).afterRead a = (s.afterRead a).withEarlier e := by
  by_cases h : a = s.cfg.kbsrAddr
  · subst h
    rw [State.afterRead_kbsr, ← State.withEarlier_poll]
    exact State.afterRead_kbsr (s.withEarlier e)
  · rw [State.afterRead_of_ne h, State.afterRead_of_ne (s := s.withEarlier e) h]

@[simp] theorem memRead_withEarlier (a : Word) :
    memRead a (s.withEarlier e) = ((memRead a s).1, (memRead a s).2.withEarlier e) := by
  simp [memRead]

@[simp] theorem loadFrom_withEarlier (d : Reg) (a : Word) :
    loadFrom d a (s.withEarlier e) = (loadFrom d a s).withEarlier e := by
  simp [loadFrom]

@[simp] theorem fetch_withEarlier : fetch (s.withEarlier e) = ((fetch s).1, (fetch s).2.withEarlier e) := by
  simp [fetch]

@[simp] theorem finishGetc_withEarlier (b : Byte) :
    finishGetc b (s.withEarlier e) = (finishGetc b s).withEarlier e := rfl

@[simp] theorem finishIn_withEarlier (b : Byte) : finishIn b (s.withEarlier e) = (finishIn b s).withEarlier e := by
  simp [finishIn]

theorem awaitByte_withEarlier (r : Routine) {finish : Byte → State → State}
    (hfinish : ∀ b t, finish b (State.withEarlier e t) = (finish b t).withEarlier e) :
    awaitByte r finish (s.withEarlier e) = (awaitByte r finish s).withEarlier e := by
  obtain ⟨hi, h⟩ | ⟨b, rest, hi, h⟩ := awaitByte_cases s r finish
  · rw [h, awaitByte_of_no_input (s := s.withEarlier e) r finish hi, State.withEarlier_setInFlight]
  · rw [h, awaitByte_of_input (s := s.withEarlier e) r finish hi, ← hfinish]
    simp

@[simp] theorem awaitByte_getc_withEarlier : awaitByte .getc finishGetc (s.withEarlier e) =
    (awaitByte .getc finishGetc s).withEarlier e :=
  awaitByte_withEarlier e s .getc fun b t => finishGetc_withEarlier e t b

@[simp] theorem awaitByte_in_withEarlier : awaitByte .inChar finishIn (s.withEarlier e) =
    (awaitByte .inChar finishIn s).withEarlier e :=
  awaitByte_withEarlier e s .inChar fun b t => finishIn_withEarlier e t b

@[simp] theorem sendString_withEarlier (sends : Word → Option (List Byte)) (r : Routine) (a : Word) :
    sendString sends r a (s.withEarlier e) = (sendString sends r a s).withEarlier e := by
  rw [sendString, State.withEarlier_sendBytes, State.withEarlier_setInFlight]
  rfl

/-! ### Instructions, steps and runs -/

theorem exec_withEarlier (i : Instr) : exec i (s.withEarlier e) = mapNext (State.withEarlier e) (exec i s) := by
  cases i with
  | addReg | addImm | andReg | andImm | notReg | lea | st | str | jmp | jsr | trapUnknown | rtiSlot
  | reservedSlot => rfl
  | br m o =>
    cases h : condTest m s.cond <;> simp [exec, execBr, h]
  | jsrr b =>
    simp only [exec, execJsrr, State.withEarlier_cfg]
    split <;> rfl
  | ld | ldi | ldr | sti => simp [exec, execLd, execLdi, execLdr, execSti]
  | trapGetc | trapIn => simp [exec, execTrapGetc, execTrapIn]
  | trapOut | trapPuts | trapPutsp | trapHalt =>
    simp [exec, execTrapOut, execTrapPuts, execTrapPutsp, execTrapHalt, putsFrom, putspFrom]

theorem resume_withEarlier (r : Routine) : resume r (s.withEarlier e) = (resume r s).withEarlier e := by
  cases r with
  | getc | inChar => simp [resume]
  | puts a | putsp a => simp [resume, putsFrom, putspFrom]

/-- A step carries earlier requests along, whatever it answers. -/
theorem step_withEarlier : step (s.withEarlier e) = mapNext (State.withEarlier e) (step s) := by
  simp only [step, State.withEarlier_run, State.withEarlier_stopTaken, State.withEarlier_inFlight,
    fetch_withEarlier, exec_withEarlier, resume_withEarlier]
  split
  · rfl
  · rfl
  · split
    · rfl
    · split <;> rfl

/-- So does a run of any length, by induction on its steps. -/
theorem run_withEarlier (k : Nat) :
    core.run k (s.withEarlier e) = mapNext (State.withEarlier e) (core.run k s) := by
  induction k generalizing s with
  | zero => rfl
  | succ k ih =>
    have hstep : core.step (s.withEarlier e) = mapNext (State.withEarlier e) (core.step s) := step_withEarlier e s
    simp only [Host.Core.run, hstep]
    cases core.step s with
    | next t => exact ih t
    | fault r => rfl
    | refused r => rfl

end withEarlier

/-- Settles O54, by `run_withEarlier`: the run with earlier requests is the image of the run without them. -/
theorem outputIsWriteOnly : Obligations.OutputIsWriteOnly := by
  intro k s earlier
  have hrun := run_withEarlier earlier s k
  exact ⟨fun t h => hrun.trans (congrArg _ h), fun r h => hrun.trans (congrArg _ h)⟩

end Sys2Proof.Machine
end

section
/-! PROOFS. TRAP (R140 to R155): what every routine leaves alone, once for the link write and once for each thing a
routine does after it, and then the routines one by one. -/

namespace Sys2Proof.Machine

/-! ### The frame every TRAP keeps (R140) -/

theorem State.link_reg_argReg (s : State) : s.link.reg argReg = s.reg argReg := by
  rw [State.link_reg, if_neg argReg_ne_linkReg]

theorem State.link_regsKept (s : State) : RegsKept [7] s s.link :=
  fun r hr => (s.link_reg r).trans (if_neg (List.ne_of_not_mem_cons hr))

theorem State.link_trapFrame (s : State) : TrapFrame [] s s.link :=
  ⟨s.setReg_reg_same linkReg s.pc, s.link_regsKept, s.link_pc, s.link_raw, s.link_polls, s.link_pollCount,
    s.link_hostStop, s.link_cfg⟩

section trapFrame
variable {but : List Reg} {s t : State}

theorem TrapFrame.sendBytes (h : TrapFrame but s t) (bs : List Byte) : TrapFrame but s (t.sendBytes bs) := h

theorem TrapFrame.setRun (h : TrapFrame but s t) (v : RunState) : TrapFrame but s (t.setRun v) := h

/-- The routines that read a byte write R0 beside the link. -/
theorem TrapFrame.writeArgReg (h : TrapFrame [] s t) (v : Word) : TrapFrame [0] s (t.writeResult argReg v) := by
  obtain ⟨hlink, hregs, hpc, hmem, hpolls, hcount, hstop, hcfg⟩ := h
  refine ⟨(t.writeResult_reg argReg 7 v).trans hlink, fun r hr => ?_, hpc, hmem, hpolls, hcount, hstop, hcfg⟩
  obtain ⟨h7, h0⟩ : r ≠ 7 ∧ r ≠ 0 := by simpa using hr
  rw [State.writeResult_reg, if_neg (show r ≠ argReg from h0)]
  exact hregs r (by simpa using h7)

/-- A frame that spares no register but R7 spares fewer than one that lets R0 change too. -/
theorem TrapFrame.weaken (h : TrapFrame [] s t) : TrapFrame [0] s t := by
  obtain ⟨hlink, hregs, hframe⟩ := h
  exact ⟨hlink, fun r hr => hregs r (fun hm => hr (List.mem_append_left [0] hm)), hframe⟩

end trapFrame

/-! ### Each TRAP as an equation -/

theorem exec_trapOut (s : State) : exec .trapOut s = .next (s.link.sendBytes [lowByte (s.reg 0)]) := by
  rw [exec, execTrapOut, State.link_reg_argReg]
  rfl

theorem exec_trapPuts (s : State) : exec .trapPuts s =
    .next (sendString putsSends (.puts (s.reg 0)) (s.reg 0) s.link) := by
  rw [exec, execTrapPuts, State.link_reg_argReg]
  rfl

theorem exec_trapPutsp (s : State) : exec .trapPutsp s =
    .next (sendString (putspSends s.cfg.putspZeroLow) (.putsp (s.reg 0)) (s.reg 0) s.link) := by
  rw [exec, execTrapPutsp, State.link_reg_argReg]
  rfl

theorem exec_trapHalt (s : State) : exec .trapHalt s =
    .next ((s.link.sendBytes s.cfg.haltNotice).setRun .halted) := rfl

theorem exec_trapUnknown (v : BitVec 8) (s : State) : exec (.trapUnknown v) s = .next s.link := rfl

/-! ### GETC and IN, whether or not their byte is there -/

theorem exec_trapGetc_trapFrame {s t : State} (h : exec .trapGetc s = .next t) : TrapFrame [0] s t := by
  cases hi : s.input with
  | nil =>
    cases h.symm.trans (exec_trapGetc_of_no_input hi)
    exact s.link_trapFrame.weaken
  | cons b rest =>
    cases h.symm.trans (exec_trapGetc_of_input hi)
    exact s.link_trapFrame.writeArgReg (zext16 b)

theorem exec_trapIn_trapFrame {s t : State} (h : exec .trapIn s = .next t) : TrapFrame [0] s t := by
  cases hi : s.input with
  | nil =>
    cases h.symm.trans (exec_trapIn_of_no_input hi)
    exact s.link_trapFrame.weaken
  | cons b rest =>
    cases h.symm.trans (exec_trapIn_of_input hi)
    exact s.link_trapFrame.writeArgReg (zext16 b)

/-! ### The bytes that are read and sent -/

theorem zext16_eq_zero_iff (b : Byte) : zext16 b = 0 ↔ b = 0 := by
  rw [← BitVec.toNat_inj, ← BitVec.toNat_inj, zext16_toNat]
  rfl

/-- A byte widened with zeros is never negative, so SetCC of it gives Z or P (R143). -/
theorem condOf_zext16 (b : Byte) : condOf (zext16 b) = if b = 0 then .z else .p := by
  have hbit : (zext16 b).getLsbD 15 = false := by simp [zext16]
  split
  next hb => rw [(zext16_eq_zero_iff b).mpr hb, condOf_zero]
  next hb => exact condOf_of_not_bit15 (mt (zext16_eq_zero_iff b).mp hb) hbit

theorem lowByte_eq_ofNat (w : Word) : lowByte w = BitVec.ofNat 8 (w.toNat % 256) :=
  BitVec.eq_of_toNat_eq (by simp [lowByte])

theorem finishGetc_argReg (b : Byte) (s : State) : ((finishGetc b s).reg argReg).toNat = b.toNat :=
  (congrArg BitVec.toNat (s.writeResult_reg_same argReg (zext16 b))).trans (zext16_toNat b)

theorem finishIn_argReg (b : Byte) (s : State) : ((finishIn b s).reg argReg).toNat = b.toNat :=
  (congrArg BitVec.toNat ((s.sendBytes [b]).writeResult_reg_same argReg (zext16 b))).trans (zext16_toNat b)

/-- Settles O31, by `exec_trapGetc_of_input` and `condOf_zext16`. -/
theorem getcReadsOneByte : Obligations.GetcReadsOneByte := fun _ b _ hi =>
  ⟨_, exec_trapGetc_of_input hi, exec_trapGetc_trapFrame (exec_trapGetc_of_input hi), finishGetc_argReg b _,
    condOf_zext16 b, rfl, rfl, rfl, rfl⟩

/-- Settles O32, by `exec_trapOut` and `lowByte_eq_ofNat`. -/
theorem outSendsTheLowByte : Obligations.OutSendsTheLowByte := fun s =>
  ⟨_, exec_trapOut s, s.link_trapFrame.sendBytes _, rfl, rfl, by rw [lowByte_eq_ofNat]; rfl, rfl, rfl⟩

/-- Settles O34, by `exec_trapIn_of_input` and `condOf_zext16`. -/
theorem inPromptsReadsAndEchoes : Obligations.InPromptsReadsAndEchoes := by
  refine fun s b _ hi => ⟨_, exec_trapIn_of_input hi, exec_trapIn_trapFrame (exec_trapIn_of_input hi),
    finishIn_argReg b _, condOf_zext16 b, rfl, ?_, rfl, rfl⟩
  simp [finishIn]

/-- Settles O36, by `exec_trapHalt`. -/
theorem haltSendsItsNoticeAndHalts : Obligations.HaltSendsItsNoticeAndHalts := fun s =>
  ⟨_, exec_trapHalt s, (s.link_trapFrame.sendBytes s.cfg.haltNotice).setRun .halted, rfl, rfl, rfl, rfl, rfl, rfl⟩

/-- Settles O37: the link write is the call of the address PC holds already. -/
theorem unknownVectorOnlyLinks : Obligations.UnknownVectorOnlyLinks := fun v s =>
  ⟨_, exec_trapUnknown v s, s.link_setPc_callResult s.pc⟩

end Sys2Proof.Machine
end

section
/-! PROOFS. BR and JSRR (R120, R125), each as one jump or call; the two forms of ADD and AND (R117). -/

namespace Sys2Proof.Machine

/-- Settles O19: each form writes the same result of the same operands. -/
theorem formsAgree : Obligations.FormsAgree := fun d a b i s h =>
  ⟨by rw [exec_addReg, exec_addImm, h], by rw [exec_andReg, exec_andImm, h]⟩

/-- The mask meets the one-hot COND exactly in the bit of the flag that COND holds (R38, R120). -/
theorem condTest_iff (mask : BitVec 3) (c : Cond) : condTest mask c = true ↔
    (mask.getLsbD 2 = true ∧ c = .n) ∨ (mask.getLsbD 1 = true ∧ c = .z) ∨ (mask.getLsbD 0 = true ∧ c = .p) := by
  cases c <;> revert mask <;> decide

/-- A branch not taken is the jump to where PC stands already. -/
theorem exec_br (mask : BitVec 3) (o : BitVec 9) (s : State) :
    exec (.br mask o) s = .next (s.setPc (if condTest mask s.cond then s.pc + sext o else s.pc)) := by
  simp only [exec, execBr]
  split <;> rfl

/-- Settles O20, by `exec_br` and `condTest_iff`. -/
theorem branchTestsTheMask : Obligations.BranchTestsTheMask := by
  refine ⟨fun _ => decodeWord_of_0, fun mask o s => ⟨_, exec_br mask o s, ?_⟩⟩
  simp only [condTest_iff]
  exact s.setPc_jumpResult _

theorem decodeWord_of_4_short {w : Word} (hop : opcodeOf w = 0x4) (hlong : longBit w = false) :
    decodeWord w = .jsrr (fieldB w) := by
  rw [decodeWord_of_4 hop, hlong, if_neg Bool.false_ne_true]

/-- Under LinkFirst the base is read after the link write, so base R7 gives the link itself (R125). -/
theorem exec_jsrr (b : Reg) (s : State) : exec (.jsrr b) s =
    .next (s.link.setPc (if b = 7 ∧ s.cfg.jsrrLinkOrder = .linkFirst then s.pc else s.reg b)) := by
  cases ho : s.cfg.jsrrLinkOrder with
  | linkFirst =>
    simp only [exec, execJsrr, ho, State.link_reg, and_true]
    rfl
  | targetFirst =>
    rw [if_neg (fun h => nomatch h.2)]
    simp only [exec, execJsrr, ho]

/-- Settles O23, by `exec_jsrr` and `State.link_setPc_callResult`. -/
theorem jsrrLinksAndJumps : Obligations.JsrrLinksAndJumps :=
  ⟨fun _ => decodeWord_of_4_short, fun b s => ⟨_, exec_jsrr b s, s.link_setPc_callResult _⟩⟩

end Sys2Proof.Machine
end

section
/-! PROOFS. The ends of a run: the illegal opcodes (R161), HALT, the state after either (R104) and the host stop
(R172). -/

namespace Sys2Proof.Machine

/-! ### No step after the end (R104) -/

theorem step_of_halted {s : State} (h : s.run = .halted) : step s = .fault .halted := by
  rw [step, h]

theorem step_of_faulted {s : State} {reason : FaultReason} (h : s.run = .faulted reason) :
    step s = .fault (.faulted reason) := by
  rw [step, h]

theorem exec_rtiSlot (s : State) : exec .rtiSlot s = .next (raiseIllegalInstruction 0x8 s) := rfl

theorem exec_reservedSlot (s : State) : exec .reservedSlot s = .next (raiseIllegalInstruction 0xD s) := rfl

/-- A run from a state without a step gets nowhere. -/
theorem run_succ_of_fault {s : State} {r : Fault} (h : step s = .fault r) (k : Nat) :
    core.run (k + 1) s = .fault r := by
  have h' : core.step s = .fault r := h
  simp only [Host.Core.run, h']

/-- Settles O38, by `raiseIllegalInstruction_eq` and `step_of_faulted`. -/
theorem illegalOpcodeFaults : Obligations.IllegalOpcodeFaults :=
  ⟨fun _ => decodeWord_of_8, fun _ => decodeWord_of_D,
    fun s => ⟨_, exec_rtiSlot s, raiseIllegalInstruction_eq s 0x8,
      step_of_faulted (raiseIllegalInstruction_run s 0x8)⟩,
    fun s => ⟨_, exec_reservedSlot s, raiseIllegalInstruction_eq s 0xD,
      step_of_faulted (raiseIllegalInstruction_run s 0xD)⟩⟩

/-- Settles O43, by `step_of_halted` and `step_of_faulted`. -/
theorem noStepAfterTheEnd : Obligations.NoStepAfterTheEnd := by
  refine ⟨fun s => ⟨step_of_halted, fun _ => step_of_faulted⟩, fun s t h => ?_, fun s t h => ?_⟩
  · cases h
    exact step_of_halted rfl
  · obtain h | h := h <;> cases h <;> exact ⟨_, step_of_faulted rfl⟩

/-! ### The host stop (R172) and the exit codes (R180) -/

/-- The stop is taken between steps and in a blocked ReadChar (R172). -/
theorem State.stopTaken_of_hostStop {s : State} (h : s.hostStop = true)
    (hf : s.inFlight = none ∨ s.inFlight = some .getc ∨ s.inFlight = some .inChar) : s.stopTaken = true := by
  obtain hf | hf | hf := hf <;> rw [State.stopTaken, hf] <;> exact h

/-- Settles O44, by `State.stopTaken_of_hostStop`; the four codes stay distinct as the answers of a launch. -/
theorem hostStopIsTakenBetweenSteps : Obligations.HostStopIsTakenBetweenSteps :=
  ⟨fun _ hr hs hf => step_of_stop hr (State.stopTaken_of_hostStop hs hf), fun _ =>
    ⟨rfl, rfl, fun _ => rfl, rfl, fun _ => rfl, fun _ => rfl,
      fun hdistinct _ => hdistinct.map (Option.some_injective Int)⟩⟩

end Sys2Proof.Machine
end

section
/-! PROOFS. What an instruction leaves unchanged: PC, registers, memory, RUN and the output, each over every
constructor. -/

namespace Sys2Proof.Machine

/-! ### The load, field by field -/

section loadFrom
variable (d : Reg) (a : Word) (s : State)

@[simp] theorem loadFrom_pc : (loadFrom d a s).pc = s.pc := s.afterRead_pc a
@[simp] theorem loadFrom_run : (loadFrom d a s).run = s.run := s.afterRead_run a
@[simp] theorem loadFrom_inFlight : (loadFrom d a s).inFlight = s.inFlight := s.afterRead_inFlight a
@[simp] theorem loadFrom_hostStop : (loadFrom d a s).hostStop = s.hostStop := s.afterRead_hostStop a
@[simp] theorem loadFrom_cfg : (loadFrom d a s).cfg = s.cfg := s.afterRead_cfg a
@[simp] theorem loadFrom_raw (b : Word) : (loadFrom d a s).raw b = (s.afterRead a).raw b := rfl

theorem loadFrom_regsKept : RegsKept [d] s (loadFrom d a s) :=
  (memRead_regsKept [d] a s).trans ((memRead a s).2.writeResult_regsKept d (memRead a s).1)

end loadFrom

/-! ### The traps are the instructions that write the link and leave PC alone (R140) -/

/-- Every TRAP keeps its frame, with R0 free exactly where it is a destination. -/
theorem exec_trapFrame {i : Instr} {s t : State} (h : exec i s = .next t) (hlink : writesLink i = true)
    (hpc : writesPc i = false) : TrapFrame (flagDest i).toList s t := by
  cases i with
  | trapGetc => exact exec_trapGetc_trapFrame h
  | trapIn => exact exec_trapIn_trapFrame h
  | trapOut | trapPuts | trapPutsp | trapHalt | trapUnknown => cases h; exact s.link_trapFrame
  | jsr | jsrr => cases hpc
  | _ => cases hlink

/-! ### PC (R36, R128) -/

theorem exec_pc {i : Instr} {s t : State} (h : exec i s = .next t) (hi : writesPc i = false) : t.pc = s.pc := by
  cases i with
  | br | jmp | jsr | jsrr => cases hi
  | addReg | addImm | andReg | andImm | notReg | lea | st | str | rtiSlot | reservedSlot => cases h; rfl
  | ld | ldi | ldr | sti =>
    cases h
    simp
  | trapGetc | trapOut | trapPuts | trapIn | trapPutsp | trapHalt | trapUnknown =>
    obtain ⟨-, -, hpc, -⟩ := exec_trapFrame h rfl rfl
    exact hpc

/-- The wait for a byte keeps whatever its last part keeps, the input stream and the step in progress aside. -/
theorem awaitByte_keeps {α : Type} (read : State → α) (r : Routine) (finish : Byte → State → State)
    (hinput : ∀ u bs, read (State.setInput u bs) = read u) (hflight : ∀ u q, read (State.setInFlight u q) = read u)
    (hfinish : ∀ b u, read (finish b u) = read u) (s : State) : read (awaitByte r finish s) = read s := by
  obtain ⟨-, h⟩ | ⟨b, rest, -, h⟩ := awaitByte_cases s r finish
  · rw [h, hflight]
  · rw [h, hfinish, hflight, hinput]

/-- A step in progress keeps what the four things it may do keep. -/
theorem resume_keeps {α : Type} (read : State → α) (hinput : ∀ u bs, read (State.setInput u bs) = read u)
    (hflight : ∀ u q, read (State.setInFlight u q) = read u) (hsend : ∀ u bs, read (State.sendBytes u bs) = read u)
    (hwrite : ∀ u v, read (State.writeResult u argReg v) = read u) (r : Routine) (s : State) :
    read (resume r s) = read s := by
  cases r with
  | getc => exact awaitByte_keeps read .getc finishGetc hinput hflight (fun b u => hwrite u (zext16 b)) s
  | inChar =>
    exact awaitByte_keeps read .inChar finishIn hinput hflight
      (fun b u => (hwrite (u.sendBytes [b]) (zext16 b)).trans (hsend u [b])) s
  | puts | putsp => exact (hflight _ _).trans (hsend s _)

theorem resume_pc (r : Routine) (s : State) : (resume r s).pc = s.pc :=
  resume_keeps State.pc (fun _ _ => rfl) (fun _ _ => rfl) (fun _ _ => rfl) (fun _ _ => rfl) r s

theorem resume_mem (r : Routine) (s : State) : (resume r s).mem = s.mem :=
  resume_keeps State.mem (fun _ _ => rfl) (fun _ _ => rfl) (fun _ _ => rfl) (fun _ _ => rfl) r s

theorem resume_run (r : Routine) (s : State) : (resume r s).run = s.run :=
  resume_keeps State.run (fun _ _ => rfl) (fun _ _ => rfl) (fun _ _ => rfl) (fun _ _ => rfl) r s

/-- Settles O49, by `exec_pc` and `resume_pc`. -/
theorem pcIsWrittenOnlyByControlTransfer : Obligations.PcIsWrittenOnlyByControlTransfer := by
  refine ⟨fun i s t h hi => exec_pc h hi, fun r s t hf h => ?_⟩
  obtain ⟨q, -, -, rfl⟩ | ⟨⟨-, hnone, -⟩, -⟩ := step_cases h
  · exact resume_pc q s
  · cases hf.symm.trans hnone

/-! ### Registers (R31 to R34) -/

theorem RegsKept.mono {but but' : List Reg} {s t : State} (h : RegsKept but s t) (hsub : but ⊆ but') :
    RegsKept but' s t :=
  fun r hr => h r (fun hm => hr (hsub hm))

theorem exec_regsKept {i : Instr} {s t : State} (h : exec i s = .next t) : RegsKept (writtenRegs i) s t := by
  cases i with
  | addReg | addImm | andReg | andImm | notReg | lea => cases h; exact s.writeResult_regsKept _ _
  | ld | ldr => cases h; exact loadFrom_regsKept _ _ s
  | ldi d o => cases h; exact (memRead_regsKept [d] _ s).trans (loadFrom_regsKept d _ _)
  | jmp | st | str | rtiSlot | reservedSlot => cases h; exact fun _ _ => rfl
  | br m o => cases h.symm.trans (exec_br m o s); exact fun _ _ => rfl
  | sti r o => cases h; exact memRead_regsKept [] _ s
  | jsr o => cases h; exact s.link_regsKept
  | jsrr b => cases h.symm.trans (exec_jsrr b s); exact s.link_regsKept
  | trapGetc | trapOut | trapPuts | trapIn | trapPutsp | trapHalt | trapUnknown =>
    obtain ⟨-, hregs, -⟩ := exec_trapFrame h rfl rfl
    exact hregs.mono (List.perm_append_singleton 7 _).symm.subset

theorem exec_link {i : Instr} {s t : State} (h : exec i s = .next t) (hi : writesLink i = true) :
    t.reg 7 = s.pc := by
  cases i with
  | jsr o => cases h; exact s.setReg_reg_same 7 s.pc
  | jsrr b => cases h.symm.trans (exec_jsrr b s); exact s.setReg_reg_same 7 s.pc
  | trapGetc | trapOut | trapPuts | trapIn | trapPutsp | trapHalt | trapUnknown =>
    obtain ⟨hlink, -⟩ := exec_trapFrame h rfl rfl
    exact hlink
  | _ => cases hi

/-- Settles O50, by `exec_regsKept` and `exec_link`. -/
theorem registersKeptButDestinations : Obligations.RegistersKeptButDestinations :=
  fun _ _ _ h => ⟨exec_regsKept h, exec_link h⟩

/-! ### Memory (R56, R58) -/

/-- An instruction that makes no MemRead changes at most the word it stores. -/
theorem exec_raw_of_not_reads {i : Instr} {s t : State} {a : Word} (h : exec i s = .next t)
    (hread : readsMemory i = false) (ha : storeAddress i s ≠ some a) : t.raw a = s.raw a := by
  cases i with
  | ld | ldi | ldr | sti => cases hread
  | st r o => cases h; exact s.memWrite_raw_ne (fun e => ha (congrArg some e.symm)) _
  | str r b o => cases h; exact s.memWrite_raw_ne (fun e => ha (congrArg some e.symm)) _
  | br m o => cases h.symm.trans (exec_br m o s); rfl
  | jsrr b => cases h.symm.trans (exec_jsrr b s); rfl
  | addReg | addImm | andReg | andImm | notReg | lea | jmp | jsr | rtiSlot | reservedSlot => cases h; rfl
  | trapGetc | trapOut | trapPuts | trapIn | trapPutsp | trapHalt | trapUnknown =>
    obtain ⟨-, -, -, hmem, -⟩ := exec_trapFrame h rfl rfl
    exact hmem a

/-- One that does may also, by a poll, change the two keyboard words. -/
theorem exec_raw_of_reads {i : Instr} {s t : State} {a : Word} (h : exec i s = .next t)
    (hread : readsMemory i = true) (ha : storeAddress i s ≠ some a) (hsr : a ≠ s.cfg.kbsrAddr)
    (hdr : a ≠ s.cfg.kbdrAddr) : t.raw a = s.raw a := by
  have hword (b : Word) : (s.afterRead b).raw a = s.raw a := s.afterRead_raw_other b hsr hdr
  cases i with
  | ld | ldr => cases h; exact hword _
  | ldi d o =>
    cases h
    rw [loadFrom_raw, memRead_snd, State.afterRead_raw_other _ _ (by simpa using hsr) (by simpa using hdr)]
    exact hword _
  | sti r o => cases h; exact (State.memWrite_raw_ne _ (fun e => ha (congrArg some e.symm)) _).trans (hword _)
  | _ => cases hread

/-- Settles O51, by the two kinds of instruction. -/
theorem memoryKeptButStoresAndPolls : Obligations.MemoryKeptButStoresAndPolls := by
  refine fun i s t h => ⟨fun a ha hsr hdr => ?_, fun hread a ha => exec_raw_of_not_reads h hread ha⟩
  cases hread : readsMemory i with
  | false => exact exec_raw_of_not_reads h hread ha
  | true => exact exec_raw_of_reads h hread ha hsr hdr

/-! ### RUN, the parameters and the stop request (R10, R40) -/

theorem exec_cfg_hostStop {i : Instr} {s t : State} (h : exec i s = .next t) :
    t.cfg = s.cfg ∧ t.hostStop = s.hostStop := by
  cases i with
  | ld | ldi | ldr | sti =>
    cases h
    simp
  | br m o => cases h.symm.trans (exec_br m o s); exact ⟨rfl, rfl⟩
  | jsrr b => cases h.symm.trans (exec_jsrr b s); exact ⟨rfl, rfl⟩
  | addReg | addImm | andReg | andImm | notReg | lea | st | str | jmp | jsr | rtiSlot | reservedSlot =>
    cases h
    exact ⟨rfl, rfl⟩
  | trapGetc | trapOut | trapPuts | trapIn | trapPutsp | trapHalt | trapUnknown =>
    obtain ⟨-, -, -, -, -, -, hstop, hcfg⟩ := exec_trapFrame h rfl rfl
    exact ⟨hcfg, hstop⟩

theorem exec_run {i : Instr} {s t : State} (h : exec i s = .next t) (hhalt : i ≠ .trapHalt) (hrti : i ≠ .rtiSlot)
    (hreserved : i ≠ .reservedSlot) : t.run = s.run := by
  cases i with
  | trapHalt => exact absurd rfl hhalt
  | rtiSlot => exact absurd rfl hrti
  | reservedSlot => exact absurd rfl hreserved
  | ld | ldi | ldr | sti =>
    cases h
    simp
  | br m o => cases h.symm.trans (exec_br m o s); rfl
  | jsrr b => cases h.symm.trans (exec_jsrr b s); rfl
  | trapGetc =>
    cases h
    exact awaitByte_keeps State.run .getc finishGetc (fun _ _ => rfl) (fun _ _ => rfl) (fun _ _ => rfl) _
  | trapIn =>
    cases h
    exact awaitByte_keeps State.run .inChar finishIn (fun _ _ => rfl) (fun _ _ => rfl) (fun _ _ => rfl) _
  | addReg | addImm | andReg | andImm | notReg | lea | st | str | jmp | jsr | trapOut | trapPuts | trapPutsp
  | trapUnknown => cases h; rfl

/-- Settles O52, by `exec_cfg_hostStop` and `exec_run`. -/
theorem runIsWrittenOnlyByHaltAndIllegal : Obligations.RunIsWrittenOnlyByHaltAndIllegal := by
  intro i s t h
  obtain ⟨hcfg, hstop⟩ := exec_cfg_hostStop h
  refine ⟨hcfg, hstop, fun hi => ?_, fun hi => ?_, exec_run h⟩
  · subst hi
    cases h
    rfl
  · obtain rfl | rfl := hi <;> cases h <;> exact ⟨_, rfl⟩

/-! ### The output (R73, R175, R181) -/

theorem State.output_of_events_append {s t : State} {new : List ConsoleEvent} (h : t.events = s.events ++ new) :
    t.output = s.output ++ new.filterMap ConsoleEvent.sent := by
  rw [State.output, h, List.filterMap_append, State.output]

/-- A poll is a request that sends nothing. -/
@[simp] theorem State.afterRead_output (a : Word) (s : State) : (s.afterRead a).output = s.output := by
  unfold State.afterRead
  split
  · exact (State.output_of_events_append s.poll_events).trans (List.append_nil _)
  · rfl

@[simp] theorem loadFrom_output (d : Reg) (a : Word) (s : State) : (loadFrom d a s).output = s.output :=
  s.afterRead_output a

@[simp] theorem State.askChar_output (s : State) : s.askChar.output = s.output :=
  (State.output_of_events_append s.askChar_events).trans (List.append_nil _)

@[simp] theorem State.sendBytes_output (s : State) (bs : List Byte) : (s.sendBytes bs).output = s.output ++ bs := by
  rw [State.output_of_events_append (s.sendBytes_events bs), List.filterMap_map]
  exact congrArg (s.output ++ ·) List.filterMap_some

theorem exec_output_of_silent {i : Instr} {s t : State} (h : exec i s = .next t) (hi : sendsOutput i = false) :
    t.output = s.output := by
  cases i with
  | trapOut | trapPuts | trapIn | trapPutsp | trapHalt => cases hi
  | ld | ldi | ldr =>
    cases h
    simp
  | sti r o => cases h; exact s.afterRead_output _
  | br m o => cases h.symm.trans (exec_br m o s); rfl
  | jsrr b => cases h.symm.trans (exec_jsrr b s); rfl
  | trapGetc =>
    cases h
    exact (awaitByte_keeps State.output .getc finishGetc (fun _ _ => rfl) (fun _ _ => rfl) (fun _ _ => rfl) _).trans
      s.link.askChar_output
  | addReg | addImm | andReg | andImm | notReg | lea | st | str | jmp | jsr | trapUnknown | rtiSlot
  | reservedSlot => cases h; rfl

theorem exec_output_of_sending {i : Instr} {s t : State} (h : exec i s = .next t) (hi : sendsOutput i = true) :
    ∃ bs, t.output = s.output ++ bs := by
  cases i with
  | trapOut | trapPuts | trapPutsp | trapHalt => cases h; exact ⟨_, s.link.sendBytes_output _⟩
  | trapIn =>
    cases hin : s.input with
    | nil =>
      cases h.symm.trans (exec_trapIn_of_no_input hin)
      exact ⟨_, State.output_of_events_append (List.append_assoc s.events _ _)⟩
    | cons b rest =>
      cases h.symm.trans (exec_trapIn_of_input hin)
      exact ⟨_, State.output_of_events_append
        (show _ = s.events ++ (s.cfg.inPrompt.map .writeChar ++ [.readChar, .writeChar b]) by simp [finishIn])⟩
  | _ => cases hi

/-- Settles O53, by the two kinds of instruction. -/
theorem outputOnlyFromTraps : Obligations.OutputOnlyFromTraps := by
  refine fun i s t h => ⟨exec_output_of_silent h, ?_⟩
  cases hi : sendsOutput i with
  | false => rw [exec_output_of_silent h hi]
  | true =>
    obtain ⟨bs, hbs⟩ := exec_output_of_sending h hi
    exact ⟨bs, hbs.symm⟩

end Sys2Proof.Machine
end

section
/-! PROOFS. Reset and the loader (R190 to R198): what the words of an image leave in memory, which images load, and
the launch as one pass over the images. -/

namespace Sys2Proof.Machine

/-! ### The launch state (R197) -/

@[simp] theorem State.powerOn_reg (cfg : Config) (m : Memory) (r : Reg) : (State.powerOn cfg m).reg r = 0 := by
  simp [State.powerOn, State.reg]

@[simp] theorem Memory.read_nil (a : Word) : Memory.read [] a = 0 := rfl

/-- Settles O55: reset is the launch state over memory that lists nothing. -/
theorem resetLeavesTheLaunchState : Obligations.ResetLeavesTheLaunchState :=
  ⟨State.powerOn_reg Config.default [], rfl, rfl, rfl, Memory.read_nil, rfl, rfl⟩

/-! ### The words of an image (R194 to R196) -/

theorem highByte_append_lowByte (w : Word) : highByte w ++ lowByte w = w :=
  (BitVec.extractLsb'_append_extractLsb'_eq_extractLsb' (w := 16) rfl).trans BitVec.extractLsb'_eq_self

theorem imageWords_imageBytes (origin : Word) (ws : List Word) :
    imageWords (imageBytes origin ws) = origin :: ws := by
  have hpairs (vs : List Word) : imageWords (vs.flatMap fun w => [highByte w, lowByte w]) = vs := by
    induction vs with
    | nil => rfl
    | cons v vs ih => exact congrArg₂ List.cons (highByte_append_lowByte v) ih
  exact hpairs (origin :: ws)

theorem imageWords_ne_nil {bytes : List Byte} (h : 2 ≤ bytes.length) : imageWords bytes ≠ [] := by
  match bytes, h with
  | _ :: _ :: _, _ => exact List.cons_ne_nil _ _

/-- The odd byte at the end of a file is in no word (R196). -/
theorem imageWords_append_byte {bytes : List Byte} (b : Byte) (h : bytes.length % 2 = 0) :
    imageWords (bytes ++ [b]) = imageWords bytes := by
  induction bytes using imageWords.induct with
  | case1 high low rest ih => exact congrArg ((high ++ low) :: ·) (ih ((Nat.add_mod_right rest.length 2).symm.trans h))
  | case2 bytes hshort =>
    match bytes with
    | [] => rfl
    | [_] => cases h
    | high :: low :: rest => exact absurd rfl (hshort high low rest)

/-! ### Placing words (R195, R196) -/

theorem placeWords_wf {m : Memory} (h : m.wf = true) (a : Nat) (ws : List Word) :
    (placeWords m a ws).wf = true := by
  induction ws generalizing m a with
  | nil => exact h
  | cons w ws ih =>
    rw [placeWords]
    split
    · exact ih (Memory.wf_write h _ w) (a + 1)
    · exact h

/-- Each address from `a` on that a word is placed at reads as that word, every other as before. -/
theorem placeWords_read {m : Memory} (h : m.wf = true) (a : Nat) (ws : List Word) (b : Word) :
    (placeWords m a ws).read b = (if a ≤ b.toNat then ws[b.toNat - a]? else none).getD (m.read b) := by
  induction ws generalizing m a with
  | nil => simp [placeWords]
  | cons w ws ih =>
    rw [placeWords]
    split
    next ha =>
      have hb : b = BitVec.ofNat 16 a ↔ b.toNat = a := by
        rw [← BitVec.toNat_inj, BitVec.toNat_ofNat, Nat.mod_eq_of_lt (show a < 2 ^ 16 from ha)]
      rw [ih (Memory.wf_write h _ w), Memory.read_write h]
      simp only [hb]
      obtain hlt | heq | hgt := Nat.lt_trichotomy b.toNat a
      · simp [hlt.ne, hlt.not_ge, show ¬ a + 1 ≤ b.toNat by omega]
      · simp [heq]
      · have hsucc : b.toNat - a = b.toNat - (a + 1) + 1 := by omega
        simp [hgt.ne', hgt.le, show a + 1 ≤ b.toNat from hgt, hsucc]
    next ha =>
      have hb : ¬ a ≤ b.toNat := fun hle => ha (Nat.lt_of_le_of_lt hle b.isLt)
      rw [if_neg hb, Option.getD_none]

theorem placeWords_read_loadedAt {m : Memory} (h : m.wf = true) (origin : Word) (ws : List Word) (a : Word) :
    (placeWords m origin.toNat ws).read a = (loadedAt origin ws a).getD (m.read a) :=
  placeWords_read h origin.toNat ws a

/-! ### One image -/

theorem loadImage_of_words {bytes : List Byte} {origin : Word} {ws : List Word}
    (h : imageWords bytes = origin :: ws) (m : Memory) :
    loadImage m (some bytes) = some (placeWords m origin.toNat ws) := by
  rw [loadImage, h]

/-- A file of at least one whole word loads (R196). -/
theorem exists_loadImage {bytes : List Byte} (h : 2 ≤ bytes.length) (m : Memory) :
    ∃ m', loadImage m (some bytes) = some m' := by
  obtain ⟨origin, ws, hw⟩ := List.exists_cons_of_ne_nil (imageWords_ne_nil h)
  exact ⟨_, loadImage_of_words hw m⟩

theorem loadImage_wf {m m' : Memory} {image : Image} (h : loadImage m image = some m') (hm : m.wf = true) :
    m'.wf = true := by
  cases image with
  | none => cases h
  | some bytes =>
    cases hw : imageWords bytes with
    | nil => rw [loadImage, hw] at h; cases h
    | cons origin ws =>
      cases h.symm.trans (loadImage_of_words hw m)
      exact placeWords_wf hm origin.toNat ws

theorem loadImage_append_byte {bytes : List Byte} (b : Byte) (h : bytes.length % 2 = 0) (m : Memory) :
    loadImage m (some (bytes ++ [b])) = loadImage m (some bytes) := by
  rw [loadImage, imageWords_append_byte b h, loadImage]

/-! ### The images one after another (R195, R198) -/

section loadAll
variable {cfg : Config} {m m' : Memory} {index : Nat} {image : Image} (rest : List Image)

theorem loadAll_of_loaded (h : loadImage m image = some m') :
    loadAll cfg m index (image :: rest) = loadAll cfg m' (index + 1) rest := by
  rw [loadAll, h]

theorem loadAll_of_failed (h : loadImage m image = none) :
    loadAll cfg m index (image :: rest) = .loadError index := by
  rw [loadAll, h]

end loadAll

theorem launch_of_ne_nil (cfg : Config) {images : List Image} (h : images ≠ []) :
    launch cfg images = loadAll cfg [] 0 images := by
  cases images with
  | nil => exact absurd rfl h
  | cons image rest => rfl

/-- Loadable images are loaded and counted, and what follows them goes on from there. -/
theorem loadAll_append (cfg : Config) {good : List Image}
    (h : ∀ image ∈ good, ∃ bytes, image = some bytes ∧ 2 ≤ bytes.length) (m : Memory) (index : Nat) :
    ∃ m', ∀ rest, loadAll cfg m index (good ++ rest) = loadAll cfg m' (index + good.length) rest := by
  induction good generalizing m index with
  | nil => exact ⟨m, fun _ => rfl⟩
  | cons image good ih =>
    obtain ⟨bytes, rfl, hlen⟩ := h _ List.mem_cons_self
    obtain ⟨m₁, hm₁⟩ := exists_loadImage hlen m
    obtain ⟨m₂, hm₂⟩ := ih (fun i hi => h i (List.mem_cons_of_mem _ hi)) m₁ (index + 1)
    refine ⟨m₂, fun rest => ?_⟩
    rw [List.cons_append, loadAll_of_loaded _ hm₁, hm₂, List.length_cons, Nat.add_right_comm, Nat.add_assoc]

/-- A launch sees of an image only what it loads. -/
theorem loadAll_congr_image (cfg : Config) {image image' : Image} (h : ∀ m, loadImage m image = loadImage m image')
    (before rest : List Image) (m : Memory) (index : Nat) :
    loadAll cfg m index (before ++ image :: rest) = loadAll cfg m index (before ++ image' :: rest) := by
  induction before generalizing m index with
  | nil => simp only [List.nil_append, loadAll, h]
  | cons head before ih => simp only [List.cons_append, loadAll, ih]

/-- A launch that starts does so in the launch state over canonical memory. -/
theorem loadAll_started {cfg : Config} {m : Memory} {index : Nat} {images : List Image} {s : State}
    (h : loadAll cfg m index images = .started s) (hm : m.wf = true) :
    ∃ m', m'.wf = true ∧ s = State.powerOn cfg m' := by
  induction images generalizing m index with
  | nil =>
    cases h
    exact ⟨m, hm, rfl⟩
  | cons image rest ih =>
    cases hi : loadImage m image with
    | none => cases h.symm.trans (loadAll_of_failed rest hi)
    | some m' => exact ih ((loadAll_of_loaded rest hi).symm.trans h) (loadImage_wf hi hm)

theorem launch_started {cfg : Config} {images : List Image} {s : State} (h : launch cfg images = .started s) :
    ∃ m, m.wf = true ∧ s = State.powerOn cfg m := by
  cases images with
  | nil => cases h
  | cons image rest => exact loadAll_started h Memory.wf_nil

/-- Settles O56, by `imageWords_imageBytes` and `placeWords_read_loadedAt`, once per image. -/
theorem imageIsLoadedFromItsOrigin : Obligations.ImageIsLoadedFromItsOrigin := by
  have hload (o : Word) (ws : List Word) (m : Memory) :
      loadImage m (some (imageBytes o ws)) = some (placeWords m o.toNat ws) :=
    loadImage_of_words (imageWords_imageBytes o ws) m
  refine ⟨fun cfg o ws => ⟨State.powerOn cfg (placeWords [] o.toNat ws), ?_,
      placeWords_read_loadedAt Memory.wf_nil o ws, rfl, State.powerOn_reg cfg _, rfl, rfl, rfl, rfl⟩,
    fun cfg o1 o2 ws1 ws2 =>
      ⟨State.powerOn cfg (placeWords (placeWords [] o1.toNat ws1) o2.toNat ws2), ?_, fun a => ?_⟩⟩
  · exact loadAll_of_loaded (index := 0) [] (hload o ws [])
  · exact (loadAll_of_loaded (index := 0) _ (hload o1 ws1 [])).trans (loadAll_of_loaded [] (hload o2 ws2 _))
  · have hread := placeWords_read_loadedAt (placeWords_wf Memory.wf_nil o1.toNat ws1) o2 ws2 a
    rw [placeWords_read_loadedAt Memory.wf_nil, Memory.read_nil] at hread
    rw [Option.getD_or]
    exact hread

/-- Settles O57, by `loadAll_append` for the images that load and `loadAll_congr_image` for the odd byte. -/
theorem launchWithoutAnImageStartsNothing : Obligations.LaunchWithoutAnImageStartsNothing := by
  refine ⟨fun _ => rfl, fun cfg good rest bad hgood hbad => ?_, fun cfg good hne hgood => ?_,
    fun cfg before rest bytes b hlen => ?_⟩
  · obtain ⟨m, hm⟩ := loadAll_append cfg hgood [] 0
    have hfail : loadImage m bad = none := by obtain rfl | rfl | ⟨b, rfl⟩ := hbad <;> rfl
    rw [launch_of_ne_nil cfg (by simp), hm, loadAll_of_failed rest hfail, Nat.zero_add]
  · obtain ⟨m, hm⟩ := loadAll_append cfg hgood [] 0
    have hstart := hm []
    rw [List.append_nil] at hstart
    exact ⟨State.powerOn cfg m, (launch_of_ne_nil cfg hne).trans hstart⟩
  · rw [launch_of_ne_nil cfg (by simp), launch_of_ne_nil cfg (by simp)]
    exact loadAll_congr_image cfg (loadImage_append_byte b hlen) before rest [] 0

end Sys2Proof.Machine
end

section
/-! PROOFS. The invariant (R53, R147, R150, R161): memory stays canonical, and a step in progress and a fault record
are sound, in every step and so in every reachable state. -/

namespace Sys2Proof.Machine

/-! ### Memory stays canonical -/

theorem exec_wf {i : Instr} {s t : State} (h : exec i s = .next t) (hs : s.mem.wf = true) : t.mem.wf = true := by
  cases i with
  | st r o => cases h; exact State.memWrite_wf hs _ _
  | str r b o => cases h; exact State.memWrite_wf hs _ _
  | ld | ldr => cases h; exact State.afterRead_wf hs _
  | ldi d o => cases h; exact State.afterRead_wf (State.afterRead_wf hs _) _
  | sti r o => cases h; exact State.memWrite_wf (State.afterRead_wf hs _) _ _
  | br m o => cases h.symm.trans (exec_br m o s); exact hs
  | jsrr b => cases h.symm.trans (exec_jsrr b s); exact hs
  | trapGetc =>
    cases h
    rw [awaitByte_keeps State.mem .getc finishGetc (fun _ _ => rfl) (fun _ _ => rfl) (fun _ _ => rfl)]
    exact hs
  | trapIn =>
    cases h
    rw [awaitByte_keeps State.mem .inChar finishIn (fun _ _ => rfl) (fun _ _ => rfl) (fun _ _ => rfl)]
    exact hs
  | addReg | addImm | andReg | andImm | notReg | lea | jmp | jsr | trapOut | trapPuts | trapPutsp | trapHalt
  | trapUnknown | rtiSlot | reservedSlot => cases h; exact hs

/-! ### The step in progress is sound -/

theorem RoutineSound.of_none {s : State} (h : s.inFlight = none) : RoutineSound s := by
  rw [RoutineSound, h]
  trivial

theorem awaitByte_routineSound {r : Routine} {finish : Byte → State → State} {s : State}
    (hfinish : ∀ b u, (finish b u).inFlight = u.inFlight) (hblocked : RoutineSound (s.setInFlight (some r))) :
    RoutineSound (awaitByte r finish s) := by
  obtain ⟨-, h⟩ | ⟨b, rest, -, h⟩ := awaitByte_cases s r finish
  · rw [h]
    exact hblocked
  · rw [h]
    exact .of_none (hfinish b _)

/-- A string stays in progress only where no word of memory stops it, so that is all its soundness may rest on. -/
theorem sendString_routineSound {sends : Word → Option (List Byte)} {r : Routine} {a : Word} {s : State}
    (hendless : (∀ b, (sends (s.raw b)).isSome = true) → RoutineSound (s.setInFlight (some r))) :
    RoutineSound (sendString sends r a s) := by
  cases hf : (sendString sends r a s).inFlight with
  | none => exact .of_none hf
  | some q =>
    obtain ⟨-, hgo⟩ := no_stop_of_sendString_inFlight s sends r a hf
    rw [sendString_of_no_stop s sends r a hgo]
    exact hendless hgo

section routines
variable {s : State} (hrun : s.run = .running) (hlink : s.reg linkReg = s.pc)
include hrun hlink

theorem getc_routineSound : RoutineSound (awaitByte .getc finishGetc s) :=
  awaitByte_routineSound (fun _ _ => rfl) ⟨hrun, hlink⟩

theorem in_routineSound : RoutineSound (awaitByte .inChar finishIn s) :=
  awaitByte_routineSound (fun _ _ => rfl) ⟨hrun, hlink⟩

theorem putsFrom_routineSound {a : Word} (ha : a = s.reg argReg) : RoutineSound (putsFrom a s) :=
  sendString_routineSound fun hgo => ⟨hrun, hlink, ha, fun b => by simpa using hgo b⟩

theorem putspFrom_routineSound {a : Word} (ha : a = s.reg argReg) : RoutineSound (putspFrom a s) :=
  sendString_routineSound fun hgo => ⟨hrun, hlink, ha, fun b => by simpa using hgo b⟩

end routines

theorem State.link_reg_linkReg (s : State) : s.link.reg linkReg = s.pc := s.setReg_reg_same linkReg s.pc

/-- Only the four routines that may wait leave a step in progress, and each has its link by then. -/
theorem exec_routineSound {i : Instr} {s t : State} (h : exec i s = .next t) (hrun : s.run = .running)
    (hf : s.inFlight = none) : RoutineSound t := by
  cases i with
  | trapGetc => cases h; exact getc_routineSound (s := s.link.askChar) hrun s.link_reg_linkReg
  | trapIn =>
    cases h
    exact in_routineSound (s := (s.link.sendBytes s.cfg.inPrompt).askChar) hrun s.link_reg_linkReg
  | trapPuts => cases h; exact putsFrom_routineSound (s := s.link) hrun s.link_reg_linkReg rfl
  | trapPutsp => cases h; exact putspFrom_routineSound (s := s.link) hrun s.link_reg_linkReg rfl
  | br m o => cases h.symm.trans (exec_br m o s); exact .of_none hf
  | jsrr b => cases h.symm.trans (exec_jsrr b s); exact .of_none hf
  | ld | ldi | ldr | sti =>
    cases h
    exact .of_none (by simpa using hf)
  | addReg | addImm | andReg | andImm | notReg | lea | st | str | jmp | jsr | trapOut | trapHalt | trapUnknown
  | rtiSlot | reservedSlot => cases h; exact .of_none hf

theorem resume_routineSound {r : Routine} {s : State} (h : RoutineSound s) (hf : s.inFlight = some r) :
    RoutineSound (resume r s) := by
  rw [RoutineSound, hf] at h
  cases r with
  | getc =>
    obtain ⟨hrun, hlink⟩ := h
    exact getc_routineSound hrun hlink
  | inChar =>
    obtain ⟨hrun, hlink⟩ := h
    exact in_routineSound hrun hlink
  | puts a =>
    obtain ⟨hrun, hlink, ha, -⟩ := h
    exact putsFrom_routineSound hrun hlink ha
  | putsp a =>
    obtain ⟨hrun, hlink, ha, -⟩ := h
    exact putspFrom_routineSound hrun hlink ha

/-! ### The fault record is sound -/

theorem FaultSound.of_running {s : State} (h : s.run = .running) : FaultSound s := by
  rw [FaultSound, h]
  trivial

theorem raiseIllegalInstruction_faultSound {opcode : BitVec 4} (h : opcode = 0x8 ∨ opcode = 0xD) (s : State) :
    FaultSound (raiseIllegalInstruction opcode s) :=
  ⟨h, (BitVec.sub_add_cancel s.pc 1).symm⟩

theorem exec_faultSound {i : Instr} {s t : State} (h : exec i s = .next t) (hrun : s.run = .running) :
    FaultSound t := by
  by_cases hhalt : i = .trapHalt
  · subst hhalt
    cases h
    trivial
  by_cases hrti : i = .rtiSlot
  · subst hrti
    cases h
    exact raiseIllegalInstruction_faultSound (.inl rfl) s
  by_cases hreserved : i = .reservedSlot
  · subst hreserved
    cases h
    exact raiseIllegalInstruction_faultSound (.inr rfl) s
  · exact .of_running ((exec_run h hhalt hrti hreserved).trans hrun)

/-! ### The invariant -/

/-- An instruction of a running machine with no step in progress establishes the invariant. -/
theorem exec_inv {i : Instr} {s t : State} (h : exec i s = .next t) (hs : s.mem.wf = true) (hrun : s.run = .running)
    (hf : s.inFlight = none) : Inv t :=
  ⟨exec_wf h hs, exec_routineSound h hrun hf, exec_faultSound h hrun⟩

/-- Every step keeps the invariant: a routine that goes on, or a fetched instruction. -/
theorem step_inv {s t : State} (hs : Inv s) (h : step s = .next t) : Inv t := by
  obtain ⟨hwf, hroutine, -⟩ := hs
  obtain ⟨r, hrun, hf, rfl⟩ | ⟨⟨hrun, hf, -⟩, hexec⟩ := step_cases h
  · refine ⟨?_, resume_routineSound hroutine hf, .of_running ((resume_run r s).trans hrun)⟩
    rw [resume_mem]
    exact hwf
  · exact exec_inv hexec (State.afterRead_wf hwf s.pc) ((s.afterRead_run s.pc).trans hrun)
      ((s.afterRead_inFlight s.pc).trans hf)

theorem powerOn_inv (cfg : Config) {m : Memory} (h : m.wf = true) : Inv (State.powerOn cfg m) :=
  ⟨h, trivial, trivial⟩

/-- Settles O58: reset is a launch state. -/
theorem resetIsSound : Obligations.ResetIsSound := powerOn_inv Config.default Memory.wf_nil

/-- Settles O59, by `step_inv`. -/
theorem everyStepKeepsTheInvariant : Obligations.EveryStepKeepsTheInvariant := fun _ _ => step_inv

/-- Settles O60, by induction on how the state is reached; the invariant speaks of nothing the outside world may
change between steps. -/
theorem reachableStatesAreSound : Obligations.ReachableStatesAreSound := by
  intro s h
  induction h with
  | launched h =>
    obtain ⟨m, hm, rfl⟩ := launch_started h
    exact powerOn_inv _ hm
  | step _ h ih => exact step_inv ih h
  | deliver bs _ ih => exact ih
  | settlePolls answers _ ih => exact ih
  | requestStop _ ih => exact ih

end Sys2Proof.Machine
end

section
/-! PROOFS. Which bits of a word decide what it decodes to (R82, R92, R99): a word is its fields packed together, a
mask masks each field by itself, and words that agree on a mask agree on every field it covers. -/

namespace Sys2Proof

/-! ### A word is its fields (R82) -/

section fields
variable {w : Word} {op : BitVec 4}

/-- Two fields side by side are one field. -/
theorem extract_append_extract (w : Word) {hi lo m n : Nat} (h : hi = lo + n) :
    w.extractLsb' hi m ++ w.extractLsb' lo n = w.extractLsb' lo (m + n) :=
  BitVec.extractLsb'_append_extractLsb'_eq_extractLsb' h

theorem packRegReg_fields (h : opcodeOf w = op) : packRegReg op (fieldA w) (fieldB w) (offset6Of w) = w := by
  subst h
  show BitVec.extractLsb' 12 4 w ++ BitVec.extractLsb' 9 3 w ++ BitVec.extractLsb' 6 3 w ++ BitVec.extractLsb' 0 6 w = w
  rw [extract_append_extract w (show 12 = 9 + 3 from rfl), extract_append_extract w (show 9 = 6 + 3 from rfl),
    extract_append_extract w (show 6 = 0 + 6 from rfl)]
  exact BitVec.extractLsb'_eq_self

theorem packRegOffset_fields (h : opcodeOf w = op) : packRegOffset op (fieldA w) (offset9Of w) = w := by
  subst h
  show BitVec.extractLsb' 12 4 w ++ BitVec.extractLsb' 9 3 w ++ BitVec.extractLsb' 0 9 w = w
  rw [extract_append_extract w (show 12 = 9 + 3 from rfl), extract_append_extract w (show 9 = 0 + 9 from rfl)]
  exact BitVec.extractLsb'_eq_self

theorem packLong_fields (h : opcodeOf w = op) : packLong op (w.extractLsb' 11 1) (offset11Of w) = w := by
  subst h
  show BitVec.extractLsb' 12 4 w ++ BitVec.extractLsb' 11 1 w ++ BitVec.extractLsb' 0 11 w = w
  rw [extract_append_extract w (show 12 = 11 + 1 from rfl), extract_append_extract w (show 11 = 0 + 11 from rfl)]
  exact BitVec.extractLsb'_eq_self

theorem packTrap_fields (h : opcodeOf w = op) : packTrap op (w.extractLsb' 8 4) (trapvect8Of w) = w := by
  subst h
  show BitVec.extractLsb' 12 4 w ++ BitVec.extractLsb' 8 4 w ++ BitVec.extractLsb' 0 8 w = w
  rw [extract_append_extract w (show 12 = 8 + 4 from rfl), extract_append_extract w (show 8 = 0 + 8 from rfl)]
  exact BitVec.extractLsb'_eq_self

end fields

/-- The mode bit is the top bit of the six low ones (R84). -/
theorem offset6Of_bit5 (w : Word) : (offset6Of w).getLsbD 5 = modeBit w := by simp [offset6Of, modeBit]

/-- The long bit is the top bit of field A (R91). -/
theorem fieldA_bit2 (w : Word) : (fieldA w).getLsbD 2 = longBit w := by simp [fieldA, longBit]

/-! ### A word under a mask -/

theorem and_packRegReg (w : Word) (mop : BitVec 4) (ma mb : BitVec 3) (mlow : BitVec 6) :
    w &&& packRegReg mop ma mb mlow =
      packRegReg (opcodeOf w &&& mop) (fieldA w &&& ma) (fieldB w &&& mb) (offset6Of w &&& mlow) := by
  conv_lhs => rw [← packRegReg_fields (w := w) rfl]
  exact BitVec.and_append.trans (congrArg (· ++ _) (BitVec.and_append.trans (congrArg (· ++ _) BitVec.and_append)))

theorem and_packTrap (w : Word) (mop mx : BitVec 4) (mlow : BitVec 8) :
    w &&& packTrap mop mx mlow =
      packTrap (opcodeOf w &&& mop) (w.extractLsb' 8 4 &&& mx) (trapvect8Of w &&& mlow) := by
  conv_lhs => rw [← packTrap_fields (w := w) rfl]
  exact BitVec.and_append.trans (congrArg (· ++ _) BitVec.and_append)

theorem and_of_allOnes {n : Nat} (x : BitVec n) {m : BitVec n} (h : m = BitVec.allOnes n) : x &&& m = x :=
  h ▸ BitVec.and_allOnes

theorem and_none {n : Nat} (x : BitVec n) : x &&& 0 = 0 := BitVec.and_zero

theorem opcode_and_all (op : BitVec 4) : op &&& 0xF = op := and_of_allOnes op rfl

section masks
variable (w : Word)

/-- The mask of the opcode alone (R81). -/
theorem and_opcodeMask : w &&& 0xF000 = packRegReg (opcodeOf w) 0 0 0 := by
  refine (and_packRegReg w 0xF 0 0 0).trans ?_
  rw [opcode_and_all, and_none, and_none, and_none]

/-- The mask of the opcode and the mode bit (R84). -/
theorem and_modeMask : w &&& 0xF020 = packRegReg (opcodeOf w) 0 0 (if modeBit w then 0x20 else 0) := by
  have hbit : ∀ low : BitVec 6, low &&& 0x20 = if low.getLsbD 5 then 0x20 else 0 := by decide
  refine (and_packRegReg w 0xF 0 0 0x20).trans ?_
  rw [opcode_and_all, and_none, and_none, hbit, offset6Of_bit5]

/-- The mask of the opcode and the long bit (R91). -/
theorem and_longMask : w &&& 0xF800 = packRegReg (opcodeOf w) (if longBit w then 0b100 else 0) 0 0 := by
  have hbit : ∀ a : BitVec 3, a &&& 0b100 = if a.getLsbD 2 then 0b100 else 0 := by decide
  refine (and_packRegReg w 0xF 0b100 0 0).trans ?_
  rw [opcode_and_all, and_none, and_none, hbit, fieldA_bit2]

/-- The mask of the opcode and the trap vector (R94). -/
theorem and_vectorMask : w &&& 0xF0FF = packTrap (opcodeOf w) 0 (trapvect8Of w) := by
  have hall : trapvect8Of w &&& 0xFF = trapvect8Of w := and_of_allOnes _ rfl
  refine (and_packTrap w 0xF 0 0xFF).trans ?_
  rw [opcode_and_all, and_none, hall]

end masks

/-- A word put together from fields agrees with `w` on a mask if each of its fields does. -/
theorem packRegReg_agrees {w : Word} {op mop : BitVec 4} {a ma b mb : BitVec 3} {low mlow : BitVec 6}
    (hop : opcodeOf w = op) (ha : a &&& ma = fieldA w &&& ma) (hb : b &&& mb = fieldB w &&& mb)
    (hlow : low &&& mlow = offset6Of w &&& mlow) :
    packRegReg op a b low &&& packRegReg mop ma mb mlow = w &&& packRegReg mop ma mb mlow := by
  rw [and_packRegReg, and_packRegReg w, opcodeOf_packRegReg, fieldA_packRegReg, fieldB_packRegReg,
    offset6Of_packRegReg, hop, ha, hb, hlow]

/-! ### Agreement on a mask -/

section agreement
variable {w w' m : Word} (h : w' &&& m = w &&& m)
include h

theorem extract_eq_of_agree {start len : Nat} (hm : m.extractLsb' start len = BitVec.allOnes len) :
    w'.extractLsb' start len = w.extractLsb' start len := by
  have hfield := congrArg (BitVec.extractLsb' start len) h
  rwa [BitVec.extractLsb'_and, BitVec.extractLsb'_and, and_of_allOnes _ hm, and_of_allOnes _ hm] at hfield

theorem bit_eq_of_agree {i : Nat} (hm : m.getLsbD i = true) : w'.getLsbD i = w.getLsbD i := by
  have hbit := congrArg (BitVec.getLsbD · i) h
  simpa only [BitVec.getLsbD_and, hm, Bool.and_true] using hbit

end agreement

/-! ### The decoder reads the used bits and no other (R92, R99) -/

/-- What DecodeReadsExactlyTheUsedBits says of one word. -/
def ReadsUsedBits (w : Word) : Prop :=
  (decodeWord w).wellFormed = true ∧
  encode (decodeWord w) &&& usedBits (decodeWord w) = w &&& usedBits (decodeWord w) ∧
  ∀ w' : Word, w' &&& usedBits (decodeWord w) = w &&& usedBits (decodeWord w) → decodeWord w' = decodeWord w

section readsUsedBits
variable {w : Word}

theorem readsUsedBits_of_decodeWord {i : Instr} (hd : decodeWord w = i) (hwf : i.wellFormed = true)
    (henc : encode i &&& usedBits i = w &&& usedBits i)
    (hdec : ∀ w' : Word, w' &&& usedBits i = w &&& usedBits i → decodeWord w' = i) : ReadsUsedBits w := by
  subst hd
  exact ⟨hwf, henc, hdec⟩

/-- An instruction that uses all its bits is encoded as the word itself. -/
theorem readsUsedBits_of_all {i : Instr} (hd : decodeWord w = i) (hwf : i.wellFormed = true)
    (hused : usedBits i = 0xFFFF) (henc : encode i = w) : ReadsUsedBits w := by
  have hall (v : Word) : v &&& usedBits i = v := and_of_allOnes v hused
  refine readsUsedBits_of_decodeWord hd hwf (by rw [henc]) fun w' h => ?_
  rw [hall, hall] at h
  rw [h, hd]

/-- The register forms of ADD and AND: bits [4:3] are ignored (R84, R92). -/
theorem readsUsedBits_of_register {op : BitVec 4} {mk : Reg → Reg → Reg → Instr} (h : opcodeOf w = op)
    (hmode : modeBit w = false)
    (hd : ∀ v, opcodeOf v = op → modeBit v = false → decodeWord v = mk (fieldA v) (fieldB v) (fieldC v))
    (hwf : ∀ a b c, (mk a b c).wellFormed = true) (hused : ∀ a b c, usedBits (mk a b c) = 0xFFE7)
    (henc : ∀ a b c, encode (mk a b c) = packRegReg op a b (0b0#1 ++ 0b00#2 ++ c)) : ReadsUsedBits w := by
  have hlow : ∀ low : BitVec 6, low.getLsbD 5 = false →
      (0b0#1 ++ 0b00#2 ++ low.extractLsb' 0 3 : BitVec 6) &&& 0b100111 = low &&& 0b100111 := by decide
  have hsr2 : (offset6Of w).extractLsb' 0 3 = fieldC w :=
    BitVec.extractLsb'_extractLsb'_of_le (by decide)
  refine readsUsedBits_of_decodeWord (hd w h hmode) (hwf _ _ _) ?_ fun w' hagree => ?_
  · rw [hused, henc, ← hsr2]
    exact packRegReg_agrees (mop := 0xF) (ma := 0b111) (mb := 0b111) h rfl rfl (hlow _ ((offset6Of_bit5 w).trans hmode))
  · rw [hused] at hagree
    have hop : opcodeOf w' = opcodeOf w := extract_eq_of_agree hagree rfl
    have hA : fieldA w' = fieldA w := extract_eq_of_agree hagree rfl
    have hB : fieldB w' = fieldB w := extract_eq_of_agree hagree rfl
    have hC : fieldC w' = fieldC w := extract_eq_of_agree hagree rfl
    have hmode' : modeBit w' = modeBit w := bit_eq_of_agree hagree rfl
    rw [hd w' (hop.trans h) (hmode'.trans hmode), hA, hB, hC]

/-- The immediate forms of ADD and AND use all bits. -/
theorem packRegReg_of_immediate {op : BitVec 4} (h : opcodeOf w = op) (hmode : modeBit w = true) :
    packRegReg op (fieldA w) (fieldB w) (0b1#1 ++ imm5Of w) = w := by
  have hlow : ∀ low : BitVec 6, low.getLsbD 5 = true → (0b1#1 ++ low.extractLsb' 0 5 : BitVec 6) = low := by decide
  have himm : (offset6Of w).extractLsb' 0 5 = imm5Of w := BitVec.extractLsb'_extractLsb'_of_le (by decide)
  rw [← himm, hlow _ ((offset6Of_bit5 w).trans hmode), packRegReg_fields h]

theorem packLong_of_long {op : BitVec 4} (h : opcodeOf w = op) (hlong : longBit w = true) :
    packLong op 0b1 (offset11Of w) = w := by
  have hone : ∀ b : BitVec 1, b.getLsbD 0 = true → b = 0b1 := by decide
  have hbit : (w.extractLsb' 11 1).getLsbD 0 = longBit w := by simp [longBit]
  rw [← hone _ (hbit.trans hlong), packLong_fields h]

theorem readsUsedBits_of_not (h : opcodeOf w = 0x9) : ReadsUsedBits w := by
  refine readsUsedBits_of_decodeWord (decodeWord_of_9 h) rfl ?_ fun w' (hagree : w' &&& 0xFFC0 = w &&& 0xFFC0) => ?_
  · exact packRegReg_agrees (mop := 0xF) (ma := 0b111) (mb := 0b111) (mlow := 0) h rfl rfl
      ((and_none _).trans (and_none _).symm)
  · have hop : opcodeOf w' = opcodeOf w := extract_eq_of_agree hagree rfl
    have hA : fieldA w' = fieldA w := extract_eq_of_agree hagree rfl
    have hB : fieldB w' = fieldB w := extract_eq_of_agree hagree rfl
    rw [decodeWord_of_9 (hop.trans h), hA, hB]

theorem readsUsedBits_of_jmp (h : opcodeOf w = 0xC) : ReadsUsedBits w := by
  refine readsUsedBits_of_decodeWord (decodeWord_of_C h) rfl ?_ fun w' (hagree : w' &&& 0xF1C0 = w &&& 0xF1C0) => ?_
  · exact packRegReg_agrees (mop := 0xF) (ma := 0) (mb := 0b111) (mlow := 0) h
      ((and_none _).trans (and_none _).symm) rfl ((and_none _).trans (and_none _).symm)
  · have hop : opcodeOf w' = opcodeOf w := extract_eq_of_agree hagree rfl
    have hB : fieldB w' = fieldB w := extract_eq_of_agree hagree rfl
    rw [decodeWord_of_C (hop.trans h), hB]

theorem readsUsedBits_of_jsrr (h : opcodeOf w = 0x4) (hlong : longBit w = false) : ReadsUsedBits w := by
  have htop : ∀ a : BitVec 3, a.getLsbD 2 = false → (0 : BitVec 3) &&& 0b100 = a &&& 0b100 := by decide
  refine readsUsedBits_of_decodeWord (Machine.decodeWord_of_4_short h hlong) rfl ?_
    fun w' (hagree : w' &&& 0xF9C0 = w &&& 0xF9C0) => ?_
  · exact packRegReg_agrees (mop := 0xF) (ma := 0b100) (mb := 0b111) (mlow := 0) h
      (htop _ ((fieldA_bit2 w).trans hlong)) rfl ((and_none _).trans (and_none _).symm)
  · have hop : opcodeOf w' = opcodeOf w := extract_eq_of_agree hagree rfl
    have hB : fieldB w' = fieldB w := extract_eq_of_agree hagree rfl
    have hlong' : longBit w' = longBit w := bit_eq_of_agree hagree rfl
    rw [Machine.decodeWord_of_4_short (hop.trans h) (hlong'.trans hlong), hB]

/-- Whatever routine a vector selects, its word is the vector's under opcode 0xF, and bits [11:8] are ignored. -/
theorem decodeTrap_form (v : BitVec 8) : (decodeTrap v).wellFormed = true ∧
    encode (decodeTrap v) = packTrap 0xF 0 v ∧ usedBits (decodeTrap v) = 0xF0FF := by
  obtain ⟨rfl, hd⟩ | ⟨rfl, hd⟩ | ⟨rfl, hd⟩ | ⟨rfl, hd⟩ | ⟨rfl, hd⟩ | ⟨rfl, hd⟩ | ⟨hunknown, hd⟩ := decodeTrap_cases v
  case inr.inr.inr.inr.inr.inr => exact hd ▸ ⟨hunknown, rfl, rfl⟩
  all_goals exact hd ▸ ⟨rfl, rfl, rfl⟩

theorem readsUsedBits_of_trap (h : opcodeOf w = 0xF) : ReadsUsedBits w := by
  obtain ⟨hwf, henc, hused⟩ := decodeTrap_form (trapvect8Of w)
  refine readsUsedBits_of_decodeWord (decodeWord_of_F h) hwf ?_ fun w' hagree => ?_
  · rw [henc, hused, and_vectorMask, and_vectorMask, opcodeOf_packTrap, trapvect8Of_packTrap, h]
  · rw [hused] at hagree
    have hop : opcodeOf w' = opcodeOf w := extract_eq_of_agree hagree rfl
    have hvect : trapvect8Of w' = trapvect8Of w := extract_eq_of_agree hagree rfl
    rw [decodeWord_of_F (hop.trans h), hvect]

/-- The two illegal opcodes use no bit but the opcode's (R93). -/
theorem readsUsedBits_of_illegal {op : BitVec 4} {i : Instr} (h : opcodeOf w = op)
    (hd : ∀ v, opcodeOf v = op → decodeWord v = i) (hwf : i.wellFormed = true) (hused : usedBits i = 0xF000)
    (henc : opcodeOf (encode i) = op) : ReadsUsedBits w := by
  refine readsUsedBits_of_decodeWord (hd w h) hwf ?_ fun w' hagree => ?_
  · rw [hused, and_opcodeMask, and_opcodeMask, henc, h]
  · rw [hused] at hagree
    have hop : opcodeOf w' = opcodeOf w := extract_eq_of_agree hagree rfl
    exact hd w' (hop.trans h)

end readsUsedBits

/-- By the sixteen opcodes and, in three of them, the bit that tells two forms apart. -/
theorem readsUsedBits (w : Word) : ReadsUsedBits w := by
  obtain h | h | h | h | h | h | h | h | h | h | h | h | h | h | h | h := opcode_cases (opcodeOf w)
  · exact readsUsedBits_of_all (decodeWord_of_0 h) rfl rfl (packRegOffset_fields h)
  · cases hmode : modeBit w with
    | false =>
      exact readsUsedBits_of_register h hmode (fun _ => Machine.decodeWord_of_1_register) (fun _ _ _ => rfl)
        (fun _ _ _ => rfl) (fun _ _ _ => rfl)
    | true =>
      exact readsUsedBits_of_all (Machine.decodeWord_of_1_immediate h hmode) rfl rfl (packRegReg_of_immediate h hmode)
  · exact readsUsedBits_of_all (decodeWord_of_2 h) rfl rfl (packRegOffset_fields h)
  · exact readsUsedBits_of_all (decodeWord_of_3 h) rfl rfl (packRegOffset_fields h)
  · cases hlong : longBit w with
    | false => exact readsUsedBits_of_jsrr h hlong
    | true => exact readsUsedBits_of_all (Machine.decodeWord_of_4_long h hlong) rfl rfl (packLong_of_long h hlong)
  · cases hmode : modeBit w with
    | false =>
      exact readsUsedBits_of_register h hmode (fun _ => Machine.decodeWord_of_5_register) (fun _ _ _ => rfl)
        (fun _ _ _ => rfl) (fun _ _ _ => rfl)
    | true =>
      exact readsUsedBits_of_all (Machine.decodeWord_of_5_immediate h hmode) rfl rfl (packRegReg_of_immediate h hmode)
  · exact readsUsedBits_of_all (decodeWord_of_6 h) rfl rfl (packRegReg_fields h)
  · exact readsUsedBits_of_all (decodeWord_of_7 h) rfl rfl (packRegReg_fields h)
  · exact readsUsedBits_of_illegal h (fun _ => decodeWord_of_8) rfl rfl rfl
  · exact readsUsedBits_of_not h
  · exact readsUsedBits_of_all (decodeWord_of_A h) rfl rfl (packRegOffset_fields h)
  · exact readsUsedBits_of_all (decodeWord_of_B h) rfl rfl (packRegOffset_fields h)
  · exact readsUsedBits_of_jmp h
  · exact readsUsedBits_of_illegal h (fun _ => decodeWord_of_D) rfl rfl rfl
  · exact readsUsedBits_of_all (decodeWord_of_E h) rfl rfl (packRegOffset_fields h)
  · exact readsUsedBits_of_trap h

/-- Settles O2, by `readsUsedBits`. -/
theorem decodeReadsExactlyTheUsedBits : Obligations.DecodeReadsExactlyTheUsedBits := readsUsedBits

/-! ### What the instruction tells of its word -/

/-- Every instruction uses the opcode bits. -/
theorem opcodeOf_encode_decodeWord (w : Word) : opcodeOf (encode (decodeWord w)) = opcodeOf w := by
  have hused (i : Instr) : (usedBits i).extractLsb' 12 4 = BitVec.allOnes 4 := by
    cases i <;> simp [usedBits]
  obtain ⟨-, henc, -⟩ := readsUsedBits w
  exact extract_eq_of_agree henc (hused (decodeWord w))

theorem opcodeOf_of_rtiSlot {w : Word} (h : decodeWord w = .rtiSlot) : opcodeOf w = 0x8 := by
  rw [← opcodeOf_encode_decodeWord, h]
  rfl

theorem opcodeOf_of_reservedSlot {w : Word} (h : decodeWord w = .reservedSlot) : opcodeOf w = 0xD := by
  rw [← opcodeOf_encode_decodeWord, h]
  rfl

/-- HALT is a TRAP word with vector 0x25 (R94). -/
theorem fields_of_trapHalt {w : Word} (h : decodeWord w = .trapHalt) :
    opcodeOf w = 0xF ∧ trapvect8Of w = 0x25 := by
  obtain ⟨-, henc, -⟩ := readsUsedBits w
  rw [h] at henc
  exact ⟨(extract_eq_of_agree (m := 0xF0FF) henc rfl).symm, (extract_eq_of_agree (m := 0xF0FF) henc rfl).symm⟩

/-- Settles O4, by decoding each of the sixteen words. -/
theorem specWordsDecodeAsWritten : Obligations.SpecWordsDecodeAsWritten := by
  unfold Obligations.SpecWordsDecodeAsWritten
  decide

/-- Settles O5, by `decodeWord_of_F` and the seven answers of `decodeTrap`. -/
theorem trapVectorsSelectRoutines : Obligations.TrapVectorsSelectRoutines := by
  rintro w h v rfl
  rw [decodeWord_of_F h]
  refine ⟨?_, ?_, ?_, ?_, ?_, ?_, fun hv => decodeTrap_of_unknown (decide_eq_true hv)⟩ <;> intro hv <;> rw [hv] <;> rfl

end Sys2Proof
end

section
/-! PROOFS. The opcode table (R99): two of its rows can match one word only if their patterns agree where both masks
look, which leaves the trap vectors' rows and the row of the unknown vectors; so a row that matches is the first. -/

namespace Sys2Proof

/-! ### Rows that match one word -/

/-- Whether some word could match both rows. -/
def TableRow.overlaps (r q : TableRow) : Bool := r.pattern &&& q.mask == q.pattern &&& r.mask

theorem overlaps_of_matches {r q : TableRow} {w : Word} (hr : r.matches w = true) (hq : q.matches w = true) :
    r.overlaps q = true := by
  have er : w &&& r.mask = r.pattern := eq_of_beq hr
  have eq : w &&& q.mask = q.pattern := eq_of_beq hq
  rw [TableRow.overlaps, ← er, ← eq, BitVec.and_assoc, BitVec.and_assoc, BitVec.and_comm q.mask, beq_self_eq_true]

/-- The table's overlaps, from its masks and patterns alone. -/
theorem opcodeTable_overlaps : ∀ m n : Fin 25, m < n →
    (opcodeTable[m.val]?.bind fun r => opcodeTable[n.val]?.map r.overlaps) = some true →
    16 ≤ m.val ∧ m.val ≤ 21 ∧ n.val = 22 := by
  decide

theorem index_lt_of_row {n : Nat} {r : TableRow} (h : opcodeTable[n]? = some r) : n < 25 := by
  obtain ⟨hn, -⟩ := List.getElem?_eq_some_iff.mp h
  exact hn

theorem rows_of_matches {w : Word} {m n : Nat} {r q : TableRow} (hr : opcodeTable[m]? = some r)
    (hq : opcodeTable[n]? = some q) (hlt : m < n) (hmr : r.matches w = true) (hmq : q.matches w = true) :
    16 ≤ m ∧ m ≤ 21 ∧ n = 22 :=
  opcodeTable_overlaps ⟨m, index_lt_of_row hr⟩ ⟨n, index_lt_of_row hq⟩ hlt
    (by rw [hr, hq, Option.bind_some, Option.map_some, overlaps_of_matches hmr hmq])

/-! ### Lookup -/

/-- Lookup gives the row that matches and has no matching row above it. -/
theorem decodeByTable_of_first {w : Word} {n : Nat} {r : TableRow} (hr : opcodeTable[n]? = some r)
    (hm : w &&& r.mask = r.pattern)
    (hfirst : ∀ m q, m < n → opcodeTable[m]? = some q → q.matches w = false) :
    decodeByTable w = some (r.build w) := by
  obtain ⟨hn, hget⟩ := List.getElem?_eq_some_iff.mp hr
  have hfind : opcodeTable.find? (fun q => q.matches w) = some r :=
    List.find?_eq_some_iff_getElem.mpr ⟨beq_iff_eq.mpr hm, n, hn, hget, fun m hlt => by
      rw [hfirst m _ hlt (List.getElem?_eq_getElem (hlt.trans hn)), Bool.not_false]⟩
  rw [decodeByTable, hfind, Option.map_some]

/-- Every row but that of the unknown vectors is the first to match when it matches. -/
theorem decodeByTable_of_row (n : Nat) {w : Word} {r : TableRow} (hr : opcodeTable[n]? = some r) (hn : n ≠ 22)
    (hm : w &&& r.mask = r.pattern) (hbuild : decodeWord w = r.build w) :
    decodeByTable w = some (decodeWord w) := by
  rw [hbuild]
  refine decodeByTable_of_first hr hm fun m q hlt hq => Bool.eq_false_iff.mpr fun hmq => ?_
  obtain ⟨-, -, h22⟩ := rows_of_matches hq hr hlt hmq (beq_iff_eq.mpr hm)
  exact hn h22

section rows
variable {w : Word} {op : BitVec 4}

theorem and_opcodeMask_of (h : opcodeOf w = op) : w &&& 0xF000 = packRegReg op 0 0 0 := by
  rw [and_opcodeMask, h]

theorem and_modeMask_of (h : opcodeOf w = op) {b : Bool} (hmode : modeBit w = b) :
    w &&& 0xF020 = packRegReg op 0 0 (if b then 0x20 else 0) := by
  rw [and_modeMask, h, hmode]

theorem and_longMask_of (h : opcodeOf w = op) {b : Bool} (hlong : longBit w = b) :
    w &&& 0xF800 = packRegReg op (if b then 0b100 else 0) 0 0 := by
  rw [and_longMask, h, hlong]

theorem and_vectorMask_of (h : opcodeOf w = 0xF) {v : BitVec 8} (hv : trapvect8Of w = v) :
    w &&& 0xF0FF = packTrap 0xF 0 v := by
  rw [and_vectorMask, h, hv]

end rows

/-- The rows of the trap vectors look at opcode and vector, and each is for a vector with a routine. -/
theorem trapRows : ∀ m < 22, 16 ≤ m →
    (opcodeTable[m]?.map fun q => (q.mask, unknownVector (trapvect8Of q.pattern))) = some (0xF0FF, false) := by
  decide

/-- So none of them matches a word with an unknown vector. -/
theorem row_not_matches_of_unknown {w : Word} {m : Nat} {q : TableRow} (hlow : 16 ≤ m) (hhigh : m < 22)
    (hq : opcodeTable[m]? = some q) (hv : unknownVector (trapvect8Of w) = true) : q.matches w = false := by
  refine Bool.eq_false_iff.mpr fun hm => ?_
  have hrow := trapRows m hhigh hlow
  rw [hq, Option.map_some, Option.some_inj, Prod.mk.injEq] at hrow
  obtain ⟨hmask, hknown⟩ := hrow
  have hpattern : w &&& q.mask = q.pattern := eq_of_beq hm
  rw [← hpattern, hmask, and_vectorMask, trapvect8Of_packTrap, hv] at hknown
  cases hknown

/-- A TRAP word is decoded by its vector's own row, or by the row of the unknown vectors where there is none. -/
theorem decodeByTable_of_trap {w : Word} (h : opcodeOf w = 0xF) : decodeByTable w = some (decodeWord w) := by
  have hd := decodeWord_of_F h
  obtain ⟨hv, e⟩ | ⟨hv, e⟩ | ⟨hv, e⟩ | ⟨hv, e⟩ | ⟨hv, e⟩ | ⟨hv, e⟩ | ⟨hv, e⟩ := decodeTrap_cases (trapvect8Of w)
  · exact decodeByTable_of_row 16 rfl (by decide) (and_vectorMask_of h hv) (hd.trans e)
  · exact decodeByTable_of_row 17 rfl (by decide) (and_vectorMask_of h hv) (hd.trans e)
  · exact decodeByTable_of_row 18 rfl (by decide) (and_vectorMask_of h hv) (hd.trans e)
  · exact decodeByTable_of_row 19 rfl (by decide) (and_vectorMask_of h hv) (hd.trans e)
  · exact decodeByTable_of_row 20 rfl (by decide) (and_vectorMask_of h hv) (hd.trans e)
  · exact decodeByTable_of_row 21 rfl (by decide) (and_vectorMask_of h hv) (hd.trans e)
  · rw [hd, e]
    have hlast : w &&& 0xF000 = 0xF000 := and_opcodeMask_of h
    refine decodeByTable_of_first (n := 22) rfl hlast fun m q hlt hq => Bool.eq_false_iff.mpr fun hmq => ?_
    obtain ⟨hlow, -, -⟩ := rows_of_matches hq rfl hlt hmq (beq_iff_eq.mpr hlast)
    exact Bool.eq_false_iff.mp (row_not_matches_of_unknown hlow hlt hq hv) hmq

/-- Every word is decoded as its row says, by the sixteen opcodes and the bits that tell two rows apart. -/
theorem decodeByTable_eq (w : Word) : decodeByTable w = some (decodeWord w) := by
  obtain h | h | h | h | h | h | h | h | h | h | h | h | h | h | h | h := opcode_cases (opcodeOf w)
  · exact decodeByTable_of_row 5 rfl (by decide) (and_opcodeMask_of h) (decodeWord_of_0 h)
  · cases hmode : modeBit w with
    | false =>
      exact decodeByTable_of_row 0 rfl (by decide) (and_modeMask_of h hmode) (Machine.decodeWord_of_1_register h hmode)
    | true =>
      exact decodeByTable_of_row 1 rfl (by decide) (and_modeMask_of h hmode) (Machine.decodeWord_of_1_immediate h hmode)
  · exact decodeByTable_of_row 9 rfl (by decide) (and_opcodeMask_of h) (decodeWord_of_2 h)
  · exact decodeByTable_of_row 13 rfl (by decide) (and_opcodeMask_of h) (decodeWord_of_3 h)
  · cases hlong : longBit w with
    | false =>
      exact decodeByTable_of_row 8 rfl (by decide) (and_longMask_of h hlong) (Machine.decodeWord_of_4_short h hlong)
    | true =>
      exact decodeByTable_of_row 7 rfl (by decide) (and_longMask_of h hlong) (Machine.decodeWord_of_4_long h hlong)
  · cases hmode : modeBit w with
    | false =>
      exact decodeByTable_of_row 2 rfl (by decide) (and_modeMask_of h hmode) (Machine.decodeWord_of_5_register h hmode)
    | true =>
      exact decodeByTable_of_row 3 rfl (by decide) (and_modeMask_of h hmode) (Machine.decodeWord_of_5_immediate h hmode)
  · exact decodeByTable_of_row 11 rfl (by decide) (and_opcodeMask_of h) (decodeWord_of_6 h)
  · exact decodeByTable_of_row 15 rfl (by decide) (and_opcodeMask_of h) (decodeWord_of_7 h)
  · exact decodeByTable_of_row 23 rfl (by decide) (and_opcodeMask_of h) (decodeWord_of_8 h)
  · exact decodeByTable_of_row 4 rfl (by decide) (and_opcodeMask_of h) (decodeWord_of_9 h)
  · exact decodeByTable_of_row 10 rfl (by decide) (and_opcodeMask_of h) (decodeWord_of_A h)
  · exact decodeByTable_of_row 14 rfl (by decide) (and_opcodeMask_of h) (decodeWord_of_B h)
  · exact decodeByTable_of_row 6 rfl (by decide) (and_opcodeMask_of h) (decodeWord_of_C h)
  · exact decodeByTable_of_row 24 rfl (by decide) (and_opcodeMask_of h) (decodeWord_of_D h)
  · exact decodeByTable_of_row 12 rfl (by decide) (and_opcodeMask_of h) (decodeWord_of_E h)
  · exact decodeByTable_of_trap h

/-- Settles O3, by `decodeByTable_eq` and `rows_of_matches`. -/
theorem decoderIsTheOpcodeTable : Obligations.DecoderIsTheOpcodeTable :=
  fun w => ⟨decodeByTable_eq w, fun _ _ _ _ hr hq hlt hmr hmq => rows_of_matches hr hq hlt hmr hmq⟩

end Sys2Proof
end

section
/-! PROOFS. Memory as data (R53, R68) and the keyboard poll (R55, R60, R71, R77): what the two keyboard words read
after a poll, and that nothing stored at KBSR_ADDR before it can be seen. -/

namespace Sys2Proof.Machine

/-! ### Stores (R53, R68) -/

/-- A second store to an address leaves no trace of the first. -/
theorem Memory.write_write_same {m : Memory} (h : m.wf = true) (a v u : Word) :
    (m.write a v).write a u = m.write a u := by
  refine Memory.ext_of_read (Memory.wf_write (Memory.wf_write h a v) a u) (Memory.wf_write h a u) fun b => ?_
  rw [Memory.read_write (Memory.wf_write h a v), Memory.read_write h, Memory.read_write h]
  split <;> rfl

theorem Memory.write_comm {m : Memory} (h : m.wf = true) {a b : Word} (hab : a ≠ b) (v u : Word) :
    (m.write a v).write b u = (m.write b u).write a v := by
  refine Memory.ext_of_read (Memory.wf_write (Memory.wf_write h a v) b u)
    (Memory.wf_write (Memory.wf_write h b u) a v) fun c => ?_
  rw [Memory.read_write (Memory.wf_write h a v), Memory.read_write h, Memory.read_write (Memory.wf_write h b u),
    Memory.read_write h]
  by_cases hb : c = b
  · rw [if_pos hb, if_neg (hb ▸ hab.symm), if_pos hb]
  · rw [if_neg hb, if_neg hb]

/-- Settles O13, by `Memory.write_comm` and `Memory.write_write_same`. -/
theorem storesCommute : Obligations.StoresCommute :=
  fun _ a _ v u h => ⟨fun hab => Memory.write_comm h hab v u, Memory.write_write_same h a v u⟩

/-! ### The keyboard words after a poll (R55) -/

section poll
variable {s : State}

theorem State.poll_regsKept (s : State) : RegsKept [] s s.poll :=
  fun r _ => by rw [State.reg, State.poll_regs, State.reg]

theorem State.poll_controlKept (s : State) : ControlKept s s.poll :=
  ⟨s.poll_run, s.poll_inFlight, s.poll_hostStop, s.poll_cfg⟩

/-- A poll that is answered yes consumes the next byte and stages it. -/
theorem State.poll_ready (hwf : s.mem.wf = true) (hne : s.cfg.kbsrAddr ≠ s.cfg.kbdrAddr)
    (ha : s.pollAnswer = true) : ∃ b rest, s.input = b :: rest ∧ s.poll.input = rest ∧
      s.poll.raw s.cfg.kbsrAddr = 0x8000 ∧ s.poll.raw s.cfg.kbdrAddr = zext16 b := by
  obtain ⟨hf, -⟩ | ⟨b, rest, -, hi, h⟩ := s.poll_cases
  · cases ha.symm.trans hf
  · have hwf' : (((s.askPoll).setInput rest).memWrite s.cfg.kbsrAddr 0x8000).mem.wf = true :=
      State.memWrite_wf (s := (s.askPoll).setInput rest) hwf _ _
    refine ⟨b, rest, hi, by rw [h]; rfl, ?_, ?_⟩
    · rw [h, State.memWrite_raw_ne _ hne]
      exact State.memWrite_raw_same (s := (s.askPoll).setInput rest) hwf _ _
    · rw [h, State.memWrite_raw_same hwf']

/-- A poll that is answered no writes zero to KBSR and touches nothing else. -/
theorem State.poll_not_ready (hwf : s.mem.wf = true) (ha : s.pollAnswer = false) : s.poll.input = s.input ∧
    s.poll.raw s.cfg.kbsrAddr = 0x0000 ∧ ∀ a, a ≠ s.cfg.kbsrAddr → s.poll.raw a = s.raw a := by
  rw [State.poll_of_not_ready ha]
  exact ⟨rfl, State.memWrite_raw_same (s := s.askPoll) hwf _ _, fun a h => State.memWrite_raw_ne s.askPoll h _⟩

theorem memRead_kbsr (s : State) : memRead s.cfg.kbsrAddr s = (s.poll.raw s.cfg.kbsrAddr, s.poll) := by
  rw [memRead, State.afterRead_kbsr]

end poll

/-- Settles O9, by `State.poll_ready` and `State.poll_not_ready`, the two answers of PollReady. -/
theorem memReadOfKbsrPolls : Obligations.MemReadOfKbsrPolls := by
  intro s hwf hne v t h
  rw [memRead_kbsr] at h
  cases h
  refine ⟨s.pollAnswer, s.poll_events, State.pollAnswer_of_no_input, fun d ds hi hp => ?_, fun ha => ?_, fun ha => ?_,
    fun a hsr hdr => s.poll_raw_other hsr hdr, s.poll_regsKept, s.poll_pc, s.poll_cond, s.poll_controlKept⟩
  · obtain ⟨b, rest, hi⟩ := List.exists_cons_of_ne_nil hi
    exact State.pollAnswer_of_scripted hi hp
  · obtain ⟨b, rest, hi, hrest, hsr, hdr⟩ := State.poll_ready hwf hne ha
    exact ⟨b, rest, hi, hrest, hsr, hsr, by rw [hdr, zext16_toNat]⟩
  · obtain ⟨hi, hsr, hother⟩ := State.poll_not_ready hwf ha
    exact ⟨hi, hsr, hsr, hother _ hne.symm⟩

/-- Reads off KBSR_ADDR, however many, leave the state as it is. -/
theorem foldl_memRead_of_ne {s : State} {reads : List Word} (h : ∀ a ∈ reads, a ≠ s.cfg.kbsrAddr) :
    reads.foldl (fun t a => (memRead a t).2) s = s := by
  induction reads with
  | nil => rfl
  | cons a reads ih =>
    rw [List.foldl_cons, memRead_of_ne (h a List.mem_cons_self)]
    exact ih fun b hb => h b (List.mem_cons_of_mem a hb)

/-- Settles O10: the staged byte is what `State.poll_ready` says, and no read but of KBSR_ADDR can replace it. -/
theorem stagedCharacterReadsBack : Obligations.StagedCharacterReadsBack := by
  intro s hwf hne
  rw [memRead_kbsr]
  refine ⟨fun hi => ?_, fun b rest ds hi hp => ?_⟩
  · obtain ⟨-, hsr, -⟩ := State.poll_not_ready hwf (State.pollAnswer_of_no_input hi)
    rw [hsr]
    show BitVec.getLsbD 0x0000#16 15 = false
    decide
  · obtain ⟨b', rest', hi', -, hsr, hdr⟩ := State.poll_ready hwf hne (State.pollAnswer_of_scripted hi hp)
    cases hi.symm.trans hi'
    refine ⟨?_, fun reads hreads => ?_⟩
    · rw [hsr]
      show BitVec.getLsbD 0x8000#16 15 = true
      decide
    · rw [foldl_memRead_of_ne (by rwa [State.poll_cfg]), memRead_of_ne (by rw [State.poll_cfg]; exact hne.symm),
        hdr, zext16_toNat]

/-- A poll writes KBSR whatever its answer, so a word stored there before leaves no trace (R60). -/
theorem State.poll_memWrite_kbsr {s : State} (hwf : s.mem.wf = true) (v : Word) :
    (s.memWrite s.cfg.kbsrAddr v).poll = s.poll := by
  have hstore (u : State) (hu : u.mem = s.mem) (x : Word) :
      (u.memWrite s.cfg.kbsrAddr v).memWrite s.cfg.kbsrAddr x = u.memWrite s.cfg.kbsrAddr x :=
    congrArg (fun m => { u with mem := m }) (Memory.write_write_same (hu ▸ hwf) s.cfg.kbsrAddr v x)
  obtain ⟨ha, h⟩ | ⟨b, rest, ha, hi, h⟩ := s.poll_cases
  · rw [h, State.poll_of_not_ready (s := s.memWrite s.cfg.kbsrAddr v) ha]
    exact hstore s.askPoll rfl 0x0000
  · rw [h, State.poll_of_ready (s := s.memWrite s.cfg.kbsrAddr v) ha hi]
    exact congrArg (State.memWrite · s.cfg.kbdrAddr (zext16 b)) (hstore ((s.askPoll).setInput rest) rfl 0x8000)

/-- Settles O12, by `State.poll_memWrite_kbsr`. -/
theorem storeToKbsrIsNeverReadBack : Obligations.StoreToKbsrIsNeverReadBack := by
  intro s v hwf _
  rw [memRead_kbsr, ← State.poll_memWrite_kbsr hwf v]
  exact memRead_kbsr (s.memWrite s.cfg.kbsrAddr v)

end Sys2Proof.Machine
end

section
/-! PROOFS. Fetch and the step (R101 to R106): what a running machine does next, whatever the fetched word is and
wherever it came from. -/

namespace Sys2Proof.Machine

/-! ### What changes RUN (R40) -/

theorem State.stopTaken_of_not_hostStop {s : State} (h : s.hostStop = false) : s.stopTaken = false := by
  rw [State.stopTaken, h]
  split <;> rfl

section run
variable {i : Instr} {s t : State} (h : exec i s = .next t) (hrun : s.run = .running)
include h hrun

theorem illegal_of_exec_faulted {reason : FaultReason} (ht : t.run = .faulted reason) :
    i = .rtiSlot ∨ i = .reservedSlot := by
  by_contra hne
  obtain ⟨hrti, hreserved⟩ := not_or.mp hne
  by_cases hhalt : i = .trapHalt
  · subst hhalt
    cases h
    cases ht
  · cases ((exec_run h hhalt hrti hreserved).trans hrun).symm.trans ht

theorem trapHalt_of_exec_halted (ht : t.run = .halted) : i = .trapHalt := by
  by_contra hhalt
  by_cases hillegal : i = .rtiSlot ∨ i = .reservedSlot
  · obtain rfl | rfl := hillegal <;> cases h <;> cases ht
  · obtain ⟨hrti, hreserved⟩ := not_or.mp hillegal
    cases ((exec_run h hhalt hrti hreserved).trans hrun).symm.trans ht

end run

/-- Settles O45: a step in progress keeps RUN, and an instruction that changes it is illegal or HALT. -/
theorem aRunningMachineAlwaysSteps : Obligations.ARunningMachineAlwaysSteps := by
  intro s hrun hstop
  cases hf : s.inFlight with
  | some r =>
    have hkeep : (resume r s).run = .running := (resume_run r s).trans hrun
    refine ⟨_, step_of_inFlight hrun (State.stopTaken_of_not_hostStop hstop) hf, fun reason h => ?_, fun h => ?_⟩
    · cases hkeep.symm.trans h
    · cases hkeep.symm.trans h
  | none =>
    obtain ⟨t, ht⟩ := exec_answers_next (decodeWord (fetch s).1) (fetch s).2
    have hfetched : (fetch s).2.run = .running := (s.afterRead_run s.pc).trans hrun
    refine ⟨t, (step_of_fetching ⟨hrun, hf, hstop⟩).trans ht, fun reason h => ⟨rfl, ?_⟩, fun h => ⟨rfl, ?_⟩⟩
    · exact (illegal_of_exec_faulted ht hfetched h).imp opcodeOf_of_rtiSlot opcodeOf_of_reservedSlot
    · exact fields_of_trapHalt (trapHalt_of_exec_halted ht hfetched h)

/-- Settles O46, by `step_of_about` and the two illegal opcodes. -/
theorem illegalWordIsPrecise : Obligations.IllegalWordIsPrecise := by
  intro s w hw hop
  have hstep : step s =
      .next { s with pc := s.pc + 1, run := .faulted (.illegalInstruction (opcodeOf w) s.pc) } := by
    rw [step_of_about hw]
    obtain hop | hop := hop
    · rw [hop, decodeWord_of_8 hop, exec_rtiSlot, raiseIllegalInstruction_eq, BitVec.add_sub_cancel]
    · rw [hop, decodeWord_of_D hop, exec_reservedSlot, raiseIllegalInstruction_eq, BitVec.add_sub_cancel]
  refine ⟨_, hstep, rfl, fun k u h => ?_⟩
  cases (run_succ_of_fault (step_of_faulted rfl) k).symm.trans h

/-- A store over the word at PC is what the next fetch finds there (R75, R201), also in the state a read leaves. -/
theorem about_of_memWrite {s u : State} {a v : Word} (hfetching : s.Fetching) (hne : s.pc ≠ s.cfg.kbsrAddr)
    (hwf : u.mem.wf = true) (hpc : u.pc = s.pc) (hcontrol : ControlKept s u) (ha : a = s.pc) :
    (u.memWrite a v).About v := by
  obtain ⟨hrun, hflight, hstop⟩ := hfetching
  obtain ⟨hrun', hflight', hstop', hcfg'⟩ := hcontrol
  refine ⟨⟨hrun'.trans hrun, hflight'.trans hflight, hstop'.trans hstop⟩, ?_, ?_⟩
  · rw [State.memWrite_pc, State.memWrite_cfg, hpc, hcfg']
    exact hne
  · rw [State.memWrite_pc, hpc, ha, State.memWrite_raw_same hwf]

/-- Settles O47, by `about_of_memWrite`; for STI in the state its pointer read leaves. -/
theorem storeReachesTheNextFetch : Obligations.StoreReachesTheNextFetch := by
  intro i s t v hwf hfetching hne h haddr hi
  have hself : ControlKept s s := ⟨rfl, rfl, rfl, rfl⟩
  refine step_of_about ?_
  obtain ⟨r, o, rfl, rfl⟩ | ⟨r, o, rfl, rfl⟩ | ⟨r, b, o, rfl, rfl⟩ := hi <;> cases h <;>
    have ha := Option.some.inj haddr
  · exact about_of_memWrite hfetching hne hwf rfl hself ha
  · exact about_of_memWrite hfetching hne (State.afterRead_wf hwf _) (s.afterRead_pc _) (memRead_controlKept _ s) ha
  · exact about_of_memWrite hfetching hne hwf rfl hself ha

/-! ### A fetch from KBSR_ADDR (R106) -/

theorem step_of_kbsr {s : State} (h : s.Fetching) (hpc : s.pc = s.cfg.kbsrAddr) :
    step s = exec (decodeWord (s.poll.raw s.cfg.kbsrAddr)) s.poll.incPc := by
  rw [step_of_fetching h, fetch_fst, fetch_snd, hpc, State.afterRead_kbsr]

/-- The word 0x0000 is the branch that is never taken. -/
theorem exec_br_never (s : State) : exec (.br 0 0) s = .next s := by
  have hnot : condTest 0 s.cond = false := by cases s.cond <;> decide
  rw [exec_br, hnot]
  rfl

/-- Settles O42, by `step_of_kbsr` and the two answers of the poll. -/
theorem fetchFromKbsrExecutesThePoll : Obligations.FetchFromKbsrExecutesThePoll := by
  intro s hfetching hpc hwf hne
  have hstep := step_of_kbsr hfetching hpc
  have hrun : s.poll.run = .running := s.poll_run.trans hfetching.1
  refine ⟨?_, ?_, fun ha => ?_, fun ha => ?_⟩
  · rintro hi ⟨ds, hp⟩
    obtain ⟨b, rest, hi⟩ := List.exists_cons_of_ne_nil hi
    exact State.pollAnswer_of_scripted hi hp
  · rintro (hi | ⟨ds, hp⟩)
    · exact State.pollAnswer_of_no_input hi
    · simp [State.pollAnswer, hp]
  · obtain ⟨b, rest, hi, hrest, hsr, hdr⟩ := State.poll_ready hwf hne ha
    rw [hsr, decodeWord_of_8 (by decide), exec_rtiSlot] at hstep
    refine ⟨b, rest, _, hi, hstep, ?_, congrArg (· + 1) s.poll_pc, hrest, hsr, by rw [← zext16_toNat b, ← hdr]; rfl,
      s.poll_regsKept, s.poll_cond⟩
    rw [raiseIllegalInstruction_run, State.incPc_pc, BitVec.add_sub_cancel, s.poll_pc, hpc]
  · obtain ⟨hi, hsr, hother⟩ := State.poll_not_ready hwf ha
    have hdecode : decodeWord 0x0000 = .br 0 0 := by decide
    rw [hsr, hdecode, exec_br_never] at hstep
    exact ⟨_, hstep, hrun, congrArg (· + 1) s.poll_pc, hi, hsr, hother, s.poll_regsKept, s.poll_cond⟩

end Sys2Proof.Machine
end

section
/-! PROOFS. PUTS and PUTSP (R145 to R150): a string that ends, by its first stopping word, and one that never does. -/

namespace Sys2Proof.Machine

/-! ### Which words a routine goes over -/

/-- A stopping word of PUTSP in the terms of R148 and R149. -/
theorem putspStops_iff (mode : PutspZeroLow) (w : Word) :
    putspStops mode w = true ↔ w = 0 ∨ (mode = .truncate ∧ lowByte w = 0) := by
  simp [putspStops]

theorem putspStops_eq_false_iff (mode : PutspZeroLow) (w : Word) :
    putspStops mode w = false ↔ w ≠ 0 ∧ (mode = .truncate → lowByte w ≠ 0) := by
  simp [putspStops]

theorem putsSends_isSome_of_ne {w : Word} (h : w ≠ 0) : (putsSends w).isSome = true := by
  rw [putsSends, if_neg h, Option.isSome_some]

theorem putspSends_isSome_of_not_stops {mode : PutspZeroLow} {w : Word} (h : putspStops mode w = false) :
    (putspSends mode w).isSome = true := by
  rw [putspSends_isSome, h, Bool.not_false]

theorem putspSends_eq_none_of_stops {mode : PutspZeroLow} {w : Word} (h : putspStops mode w = true) :
    putspSends mode w = none := by
  rw [← Option.not_isSome_iff_eq_none, putspSends_isSome, h]
  exact Bool.false_ne_true

/-! ### Strings that end -/

/-- Settles O33, by `sendString_of_stop` and `stringBytes_puts`. -/
theorem putsSendsUpToAZeroWord : Obligations.PutsSendsUpToAZeroWord := by
  intro s k hk hgo hstop
  have hsend : sendString putsSends (.puts (s.reg 0)) (s.reg 0) s.link =
      (s.link.sendBytes (stringBytes putsSends s.mem (s.reg 0) k)).setInFlight none :=
    sendString_of_stop s.link putsSends _ (s.reg 0) hk (fun j hj => putsSends_isSome_of_ne (hgo j hj)) (if_pos hstop)
  refine ⟨_, (exec_trapPuts s).trans (congrArg _ hsend), s.link_trapFrame, rfl, rfl, ?_, rfl, rfl⟩
  rw [stringBytes_puts hgo, State.setInFlight_events, State.sendBytes_events, List.map_map]
  rfl

/-- Settles O35, by `sendString_of_stop` and `stringBytes_putsp`. -/
theorem putspSendsPackedBytes : Obligations.PutspSendsPackedBytes := by
  intro s k hk hgo hstop
  have hgo' : ∀ j < k, putspStops s.cfg.putspZeroLow (s.raw (s.reg 0 + BitVec.ofNat 16 j)) = false :=
    fun j hj => (putspStops_eq_false_iff _ _).mpr (hgo j hj)
  have hsend : sendString (putspSends s.cfg.putspZeroLow) (.putsp (s.reg 0)) (s.reg 0) s.link =
      (s.link.sendBytes (stringBytes (putspSends s.cfg.putspZeroLow) s.mem (s.reg 0) k)).setInFlight none :=
    sendString_of_stop s.link _ _ (s.reg 0) hk (fun j hj => putspSends_isSome_of_not_stops (hgo' j hj))
      (putspSends_eq_none_of_stops ((putspStops_iff _ _).mpr hstop))
  refine ⟨_, (exec_trapPutsp s).trans (congrArg _ hsend), s.link_trapFrame, rfl, rfl, ?_, rfl, rfl⟩
  rw [stringBytes_putsp hgo']
  rfl

/-! ### Strings that never end (R150) -/

/-- The state with these requests made after all of its own. -/
def State.addEvents (s : State) (es : List ConsoleEvent) : State := { s with events := s.events ++ es }

@[simp] theorem State.addEvents_nil (s : State) : s.addEvents [] = s := by
  rw [State.addEvents, List.append_nil]

@[simp] theorem State.addEvents_addEvents (s : State) (es es' : List ConsoleEvent) :
    (s.addEvents es).addEvents es' = s.addEvents (es ++ es') := by
  simp only [State.addEvents, List.append_assoc]

/-- Where a step adds `es` to the requests, whatever they are, and does nothing else, `k` steps add it `k` times. -/
theorem run_of_step_adds {t : State} {es : List ConsoleEvent}
    (hstep : ∀ before, step (t.addEvents before) = .next ((t.addEvents before).addEvents es)) (k : Nat) :
    core.run k t = .next (t.addEvents (List.replicate k es).flatten) := by
  have hafter (before : List ConsoleEvent) :
      core.run k (t.addEvents before) = .next (t.addEvents (before ++ (List.replicate k es).flatten)) := by
    induction k generalizing before with
    | zero => simp [Host.Core.run]
    | succ k ih => rw [run_succ_of_step (hstep before), State.addEvents_addEvents, ih, List.append_assoc]; rfl
  simpa using hafter []

section endless
variable {sends : Word → Option (List Byte)} {r : Routine} {a : Word} {bytes : List Byte}

/-- A step of a string routine in progress over memory that never stops it sends one more pass. -/
theorem step_of_endless {t : State} (hrun : t.run = .running) (hstop : t.stopTaken = false)
    (hf : t.inFlight = some r) (hresume : resume r t = sendString sends r a t)
    (hgo : ∀ b, (sends (t.raw b)).isSome = true) (hbytes : stringBytes sends t.mem a memorySize = bytes) :
    step t = .next (t.addEvents (bytes.map .writeChar)) := by
  rw [step_of_inFlight hrun hstop hf, hresume, sendString_of_no_stop t sends r a hgo, hbytes, ← hf]
  rfl

/-- A TRAP that starts such a routine sends one pass and leaves it in progress, and every further step sends another:
`bytes` are those of one pass. -/
theorem exec_endless {i : Instr} {s : State}
    (hexec : exec i s = .next (sendString sends r a s.link)) (hrun : s.run = .running)
    (hgo : ∀ b, (sends (s.raw b)).isSome = true) (hstop : ∀ t : State, t.inFlight = some r → t.stopTaken = false)
    (hresume : ∀ t : State, t.cfg = s.cfg → resume r t = sendString sends r a t)
    (hbytes : stringBytes sends s.mem a memorySize = bytes) :
    ∃ t, exec i s = .next t ∧ TrapFrame [] s t ∧ t.cond = s.cond ∧ t.run = .running ∧ t.input = s.input ∧
      t.events = s.events ++ bytes.map .writeChar ∧
      ∀ k, core.run k t = .next (t.addEvents (List.replicate k (bytes.map .writeChar)).flatten) := by
  rw [sendString_of_no_stop s.link sends r a hgo, State.link_mem, hbytes] at hexec
  refine ⟨_, hexec, s.link_trapFrame, rfl, hrun, rfl, rfl, run_of_step_adds fun before => ?_⟩
  exact step_of_endless hrun (hstop _ rfl) rfl (hresume _ rfl) hgo hbytes

end endless

/-- Settles O40, by `exec_endless` for PUTS and for PUTSP; neither takes a host stop. -/
theorem endlessStringNeverCompletes : Obligations.EndlessStringNeverCompletes := by
  refine fun s hrun => ⟨fun hgo => ?_, fun hgo => ?_⟩
  · obtain ⟨t, ht, hframe, hcond, hrun', hinput, hevents, hmore⟩ := exec_endless (exec_trapPuts s) hrun
      (fun b => putsSends_isSome_of_ne (hgo b)) (fun t hf => by rw [State.stopTaken, hf]) (fun _ _ => rfl)
      (stringBytes_puts fun _ _ => hgo _)
    exact ⟨t, _, ht, rfl, hframe, hcond, hrun', hinput, hevents, hmore⟩
  · have hgo' (b : Word) : putspStops s.cfg.putspZeroLow (s.raw b) = false :=
      (putspStops_eq_false_iff _ _).mpr (hgo b)
    obtain ⟨t, ht, hframe, hcond, hrun', hinput, hevents, hmore⟩ := exec_endless (exec_trapPutsp s) hrun
      (fun b => putspSends_isSome_of_not_stops (hgo' b)) (fun t hf => by rw [State.stopTaken, hf])
      (fun t ht => by rw [← ht]; rfl) (stringBytes_putsp fun _ _ => hgo' _)
    exact ⟨t, _, ht, rfl, hframe, hcond, hrun', hinput, hevents, hmore⟩

end Sys2Proof.Machine
end

section
/-! PROOFS. GETC and IN with no byte there (R147): they wait with their link written and go on as if the byte had been
there from the start. -/

namespace Sys2Proof.Machine

/-- A read blocked in routine `r` stands still while no byte is there. -/
theorem step_of_blocked {r : Routine} {finish : Byte → State → State} {t : State} (hrun : t.run = .running)
    (hstop : t.hostStop = false) (hf : t.inFlight = some r) (hresume : resume r t = awaitByte r finish t)
    (hin : t.input = []) : step t = .next t := by
  rw [step_of_inFlight hrun (State.stopTaken_of_not_hostStop hstop) hf, hresume, awaitByte_of_no_input r finish hin,
    ← hf]
  rfl

/-- With a byte there it completes. -/
theorem step_of_blocked_input {r : Routine} {finish : Byte → State → State} {t : State} {b : Byte} {rest : List Byte}
    (hrun : t.run = .running) (hstop : t.hostStop = false) (hf : t.inFlight = some r)
    (hresume : resume r t = awaitByte r finish t) (hin : t.input = b :: rest) :
    step t = .next (finish b ((t.setInput rest).setInFlight none)) := by
  rw [step_of_inFlight hrun (State.stopTaken_of_not_hostStop hstop) hf, hresume, awaitByte_of_input r finish hin]

/-- Settles O39, by `step_of_blocked` and `step_of_blocked_input`. -/
theorem blockedReadWaitsAndGoesOn : Obligations.BlockedReadWaitsAndGoesOn := by
  intro s hrun hstop hin
  have harrived (b : Byte) (rest : List Byte) : (s.deliver (b :: rest)).input = b :: rest := by
    rw [State.deliver_input, hin, List.nil_append]
  refine ⟨⟨_, exec_trapGetc_of_no_input hin, s.link_trapFrame, rfl, hrun, rfl,
      step_of_blocked hrun hstop rfl rfl hin, fun b rest => ?_⟩,
    ⟨_, exec_trapIn_of_no_input hin, s.link_trapFrame, rfl, hrun, rfl,
      step_of_blocked hrun hstop rfl rfl hin, fun b rest => ?_⟩⟩
  · rw [exec_trapGetc_of_input (harrived b rest)]
    exact step_of_blocked_input (r := .getc) hrun hstop rfl rfl (harrived b rest)
  · rw [exec_trapIn_of_input (harrived b rest)]
    exact step_of_blocked_input (r := .inChar) hrun hstop rfl rfl (harrived b rest)

end Sys2Proof.Machine
end
